-- ==== Sys2Proof/Word.lean ====
section
/-! DEFINITION. The bit-vector types of the CHIP-8 engine (00_scope.md R8, R13, R14) and their plainest
arithmetic. Every value of the engine is unsigned (R13). -/

namespace Sys2Proof

/-- An 8-bit value: a general register, a memory byte, a timer, an immediate `kk` (R8, R65). -/
abbrev Byte := BitVec 8

/-- A 16-bit value: an instruction word, `PC`, `I`, a stack entry (R8, R62). -/
abbrev Word := BitVec 16

/-- A 12-bit address field `nnn` of an instruction word (R63). -/
abbrev Addr := BitVec 12

/-- A 4-bit field of an instruction word (R22 "Nibble"). -/
abbrev Nibble := BitVec 4

/-- The index of a general register: always in 0x0 to 0xF (R26, R29). -/
abbrev RegIdx := Fin 16

/-- The 4-bit field that encodes a register index (R63). -/
def RegIdx.toNibble (x : RegIdx) : Nibble := BitVec.ofFin x

/-- The register index a 4-bit field selects (R63, R65). -/
def RegIdx.ofNibble (b : Nibble) : RegIdx := b.toFin

/-- The index of the flag register `VF` (R27). -/
abbrev vf : RegIdx := 15

end Sys2Proof
end

