-- ==== Sys2Proof/Machine/Flags.lean ====
section
/-! DEFINITION. The values the flag instructions write into VF (10_state.md R27, 42_alu.md R97). -/

namespace Sys2Proof.Machine

/-- A flag as VF holds it: 1 or 0. -/
def flagByte (c : Bool) : Byte := if c then 1 else 0

/-- The carry of ADD: 1 if the exact sum passes 255 (R97, R106). -/
def carryFlag (sum : Nat) : Byte := flagByte (decide (sum > 255))

/-- The flag of SUB and SUBN: 1 when no borrow occurs, so 1 when the two are equal (R97, R107, R109). -/
def notBorrowFlag (minuend subtrahend : Byte) : Byte := flagByte (decide (minuend.toNat ≥ subtrahend.toNat))

/-- The flag of SHR: the least-significant bit before the shift (R108). -/
def shiftedOutRight (b : Byte) : Byte := b &&& 1

/-- The flag of SHL: the most-significant bit before the shift (R110). -/
def shiftedOutLeft (b : Byte) : Byte := (b >>> 7) &&& 1

end Sys2Proof.Machine
end

