-- ==== Sys2Proof/Syntax.lean ====
section
/-! DEFINITION. The 35 instructions (30_encoding.md R68): one constructor per row of spec/opcode_table.json, with the
operands its format names (R64, R65). `UnknownOpcode` is the decoder's verdict and no constructor (R77). -/

namespace Sys2Proof

/-- The instruction set, in the order of spec/opcode_table.json. -/
inductive Instr where
  /-- `00E0` CLS (R121). -/
  | cls
  /-- `00EE` RET (R89). -/
  | ret
  /-- `0nnn` SYS addr, every class-0 word but 00E0 and 00EE (R88, R67). -/
  | sys (nnn : Addr)
  /-- `1nnn` JP addr (R90). -/
  | jp (nnn : Addr)
  /-- `2nnn` CALL addr (R91). -/
  | call (nnn : Addr)
  /-- `3xkk` SE Vx, byte (R92). -/
  | seByte (x : RegIdx) (kk : Byte)
  /-- `4xkk` SNE Vx, byte (R93). -/
  | sneByte (x : RegIdx) (kk : Byte)
  /-- `5xy0` SE Vx, Vy (R94). -/
  | seReg (x y : RegIdx)
  /-- `6xkk` LD Vx, byte (R100). -/
  | ldByte (x : RegIdx) (kk : Byte)
  /-- `7xkk` ADD Vx, byte (R101). -/
  | addByte (x : RegIdx) (kk : Byte)
  /-- `8xy0` LD Vx, Vy (R102). -/
  | ldReg (x y : RegIdx)
  /-- `8xy1` OR Vx, Vy (R103). -/
  | orReg (x y : RegIdx)
  /-- `8xy2` AND Vx, Vy (R104). -/
  | andReg (x y : RegIdx)
  /-- `8xy3` XOR Vx, Vy (R105). -/
  | xorReg (x y : RegIdx)
  /-- `8xy4` ADD Vx, Vy (R106). -/
  | addReg (x y : RegIdx)
  /-- `8xy5` SUB Vx, Vy (R107). -/
  | subReg (x y : RegIdx)
  /-- `8xy6` SHR Vx {, Vy} (R108); the field `y` is decoded and ignored (R99). -/
  | shr (x y : RegIdx)
  /-- `8xy7` SUBN Vx, Vy (R109). -/
  | subn (x y : RegIdx)
  /-- `8xyE` SHL Vx {, Vy} (R110); the field `y` is decoded and ignored (R99). -/
  | shl (x y : RegIdx)
  /-- `9xy0` SNE Vx, Vy (R95). -/
  | sneReg (x y : RegIdx)
  /-- `Annn` LD I, addr (R112). -/
  | ldI (nnn : Addr)
  /-- `Bnnn` JP V0, addr (R96). -/
  | jpV0 (nnn : Addr)
  /-- `Cxkk` RND Vx, byte (R111). -/
  | rnd (x : RegIdx) (kk : Byte)
  /-- `Dxyn` DRW Vx, Vy, n (R122). -/
  | drw (x y : RegIdx) (n : Nibble)
  /-- `Ex9E` SKP Vx (R123). -/
  | skp (x : RegIdx)
  /-- `ExA1` SKNP Vx (R124). -/
  | sknp (x : RegIdx)
  /-- `Fx07` LD Vx, DT (R125). -/
  | ldVxDt (x : RegIdx)
  /-- `Fx0A` LD Vx, K (R126). -/
  | ldVxK (x : RegIdx)
  /-- `Fx15` LD DT, Vx (R127). -/
  | ldDtVx (x : RegIdx)
  /-- `Fx18` LD ST, Vx (R128). -/
  | ldStVx (x : RegIdx)
  /-- `Fx1E` ADD I, Vx (R113). -/
  | addI (x : RegIdx)
  /-- `Fx29` LD F, Vx (R114). -/
  | ldF (x : RegIdx)
  /-- `Fx33` LD B, Vx (R115). -/
  | ldB (x : RegIdx)
  /-- `Fx55` LD [I], Vx (R116). -/
  | storeRegs (x : RegIdx)
  /-- `Fx65` LD Vx, [I] (R117). -/
  | loadRegs (x : RegIdx)
deriving DecidableEq, Repr

end Sys2Proof
end

