-- ==== Sys2Proof/WellFormed.lean ====
section
/-! DEFINITION. Which terms of `Instr` are instructions of the engine. Operand widths are fixed by the types, so the one
check is on SYS: its row excludes the two class-0 words that are CLS and RET (30_encoding.md R67). -/

namespace Sys2Proof

/-- The address fields that the row `0nnn` excludes: 0x0E0 is CLS and 0x0EE is RET (R67). -/
def sysExcludes (nnn : Addr) : Bool := nnn == 0x0E0#12 || nnn == 0x0EE#12

/-- An instruction is well-formed when some word encodes it (R67, R68). -/
def Instr.wf : Instr → Bool
  | .sys nnn => !sysExcludes nnn
  | .cls | .ret | .jp _ | .call _ | .seByte _ _ | .sneByte _ _ | .seReg _ _ | .ldByte _ _ | .addByte _ _
  | .ldReg _ _ | .orReg _ _ | .andReg _ _ | .xorReg _ _ | .addReg _ _ | .subReg _ _ | .shr _ _ | .subn _ _
  | .shl _ _ | .sneReg _ _ | .ldI _ | .jpV0 _ | .rnd _ _ | .drw _ _ _ | .skp _ | .sknp _ | .ldVxDt _
  | .ldVxK _ | .ldDtVx _ | .ldStVx _ | .addI _ | .ldF _ | .ldB _ | .storeRegs _ | .loadRegs _ => true

end Sys2Proof
end

