-- ==== Sys2Proof/Decode.lean ====
section
/-! DEFINITION. The decoder (30_encoding.md R62 to R69, 40_engine.md R76) and after it the encoder, both written from the
opcode map of R66 and the formats of R64. Big-endian: the byte at the lower address is bits 15 to 8 (R50). -/

namespace Sys2Proof

/-- `u = w[15:12]`, the opcode class (R63). -/
def fieldU (w : Word) : Nibble := w.extractLsb' 12 4

/-- `x = w[11:8]` (R63). -/
def fieldX (w : Word) : RegIdx := RegIdx.ofNibble (w.extractLsb' 8 4)

/-- `y = w[7:4]` (R63). -/
def fieldY (w : Word) : RegIdx := RegIdx.ofNibble (w.extractLsb' 4 4)

/-- `n = w[3:0]` (R63). -/
def fieldN (w : Word) : Nibble := w.extractLsb' 0 4

/-- `kk = w[7:0]` (R63). -/
def fieldKK (w : Word) : Byte := w.extractLsb' 0 8

/-- `nnn = w[11:0]` (R63). -/
def fieldNNN (w : Word) : Addr := w.extractLsb' 0 12

/-- Class 0x0: the two exact words, and SYS for every other word of the class (R66, R67). -/
def decodeClass0 (nnn : Addr) : Instr :=
  if nnn = 0x0E0#12 then .cls else if nnn = 0x0EE#12 then .ret else .sys nnn

/-- Class 0x8 by the function nibble `n` (R66). -/
def decodeClass8 (x y : RegIdx) (n : Nibble) : Option Instr :=
  match n.toNat with
  | 0x0 => some (.ldReg x y)
  | 0x1 => some (.orReg x y)
  | 0x2 => some (.andReg x y)
  | 0x3 => some (.xorReg x y)
  | 0x4 => some (.addReg x y)
  | 0x5 => some (.subReg x y)
  | 0x6 => some (.shr x y)
  | 0x7 => some (.subn x y)
  | 0xE => some (.shl x y)
  | _ => none

/-- Class 0xE by the function byte `kk` (R66). -/
def decodeClassE (x : RegIdx) (kk : Byte) : Option Instr :=
  match kk.toNat with
  | 0x9E => some (.skp x)
  | 0xA1 => some (.sknp x)
  | _ => none

/-- Class 0xF by the function byte `kk` (R66). -/
def decodeClassF (x : RegIdx) (kk : Byte) : Option Instr :=
  match kk.toNat with
  | 0x07 => some (.ldVxDt x)
  | 0x0A => some (.ldVxK x)
  | 0x15 => some (.ldDtVx x)
  | 0x18 => some (.ldStVx x)
  | 0x1E => some (.addI x)
  | 0x29 => some (.ldF x)
  | 0x33 => some (.ldB x)
  | 0x55 => some (.storeRegs x)
  | 0x65 => some (.loadRegs x)
  | _ => none

/-- The decoder on one instruction word: the opcode map of R66. `none` is the verdict `UnknownOpcode` (R69, R76). -/
def decodeWord (w : Word) : Option Instr :=
  match (fieldU w).toNat with
  | 0x0 => some (decodeClass0 (fieldNNN w))
  | 0x1 => some (.jp (fieldNNN w))
  | 0x2 => some (.call (fieldNNN w))
  | 0x3 => some (.seByte (fieldX w) (fieldKK w))
  | 0x4 => some (.sneByte (fieldX w) (fieldKK w))
  | 0x5 => if fieldN w = 0 then some (.seReg (fieldX w) (fieldY w)) else none
  | 0x6 => some (.ldByte (fieldX w) (fieldKK w))
  | 0x7 => some (.addByte (fieldX w) (fieldKK w))
  | 0x8 => decodeClass8 (fieldX w) (fieldY w) (fieldN w)
  | 0x9 => if fieldN w = 0 then some (.sneReg (fieldX w) (fieldY w)) else none
  | 0xA => some (.ldI (fieldNNN w))
  | 0xB => some (.jpV0 (fieldNNN w))
  | 0xC => some (.rnd (fieldX w) (fieldKK w))
  | 0xD => some (.drw (fieldX w) (fieldY w) (fieldN w))
  | 0xE => decodeClassE (fieldX w) (fieldKK w)
  | 0xF => decodeClassF (fieldX w) (fieldKK w)
  | _ => none

/-- The instruction word of two consecutive bytes, high byte first (R50, R75). -/
def wordOfBytes (hi lo : Byte) : Word := hi ++ lo

/-- The byte at the lower address: bits 15 to 8 of the word (R50). -/
def highByte (w : Word) : Byte := w.extractLsb' 8 8

/-- The byte at the higher address: bits 7 to 0 of the word (R50). -/
def lowByte (w : Word) : Byte := w.extractLsb' 0 8

/-- What the decoder makes of a list of bytes. -/
inductive Decoded where
  /-- An instruction, and the bytes after it. -/
  | instr (i : Instr) (rest : List Byte)
  /-- The two bytes are the word `w`, which matches no pattern: `UnknownOpcode` (R69). -/
  | unknownOpcode (w : Word)
  /-- Fewer than two bytes: no instruction word stands there (R62). -/
  | truncated
deriving DecidableEq, Repr

/-- The decoder on bytes in ascending addresses: total, taking the first two (R62, R66, R75). -/
def decode : List Byte → Decoded
  | hi :: lo :: rest =>
    match decodeWord (wordOfBytes hi lo) with
    | some i => .instr i rest
    | none => .unknownOpcode (wordOfBytes hi lo)
  | [_] => .truncated
  | [] => .truncated

/-! The encoder, from the formats of R64 and the words of R71. -/

/-- Format `nnn`: the class nibble and the address (R64). -/
def encNnn (u : Nibble) (nnn : Addr) : Word := u ++ nnn

/-- Format `xkk`: the class nibble, the register and the byte (R64). Format `x` is the same with `kk` a function byte. -/
def encXkk (u : Nibble) (x : RegIdx) (kk : Byte) : Word := u ++ (x.toNibble ++ kk)

/-- Format `xyn`: the class nibble, two registers and the low nibble (R64). Format `xy` is the same with `n` a function nibble. -/
def encXyn (u : Nibble) (x y : RegIdx) (n : Nibble) : Word := u ++ (x.toNibble ++ (y.toNibble ++ n))

/-- The word of an instruction (R64, R71). -/
def encode : Instr → Word
  | .cls => 0x00E0#16
  | .ret => 0x00EE#16
  | .sys nnn => encNnn 0x0 nnn
  | .jp nnn => encNnn 0x1 nnn
  | .call nnn => encNnn 0x2 nnn
  | .seByte x kk => encXkk 0x3 x kk
  | .sneByte x kk => encXkk 0x4 x kk
  | .seReg x y => encXyn 0x5 x y 0x0
  | .ldByte x kk => encXkk 0x6 x kk
  | .addByte x kk => encXkk 0x7 x kk
  | .ldReg x y => encXyn 0x8 x y 0x0
  | .orReg x y => encXyn 0x8 x y 0x1
  | .andReg x y => encXyn 0x8 x y 0x2
  | .xorReg x y => encXyn 0x8 x y 0x3
  | .addReg x y => encXyn 0x8 x y 0x4
  | .subReg x y => encXyn 0x8 x y 0x5
  | .shr x y => encXyn 0x8 x y 0x6
  | .subn x y => encXyn 0x8 x y 0x7
  | .shl x y => encXyn 0x8 x y 0xE
  | .sneReg x y => encXyn 0x9 x y 0x0
  | .ldI nnn => encNnn 0xA nnn
  | .jpV0 nnn => encNnn 0xB nnn
  | .rnd x kk => encXkk 0xC x kk
  | .drw x y n => encXyn 0xD x y n
  | .skp x => encXkk 0xE x 0x9E
  | .sknp x => encXkk 0xE x 0xA1
  | .ldVxDt x => encXkk 0xF x 0x07
  | .ldVxK x => encXkk 0xF x 0x0A
  | .ldDtVx x => encXkk 0xF x 0x15
  | .ldStVx x => encXkk 0xF x 0x18
  | .addI x => encXkk 0xF x 0x1E
  | .ldF x => encXkk 0xF x 0x29
  | .ldB x => encXkk 0xF x 0x33
  | .storeRegs x => encXkk 0xF x 0x55
  | .loadRegs x => encXkk 0xF x 0x65

/-- The two bytes of an instruction as memory holds them, lower address first (R50). -/
def encodeBytes (i : Instr) : List Byte := [highByte (encode i), lowByte (encode i)]

/-! The opcode table's numbering of a word, for the host. -/

/-- The word that `nbits` bits of `w` stand for, the bits above `nbits` zero. An instruction is one 16-bit word (R62), and
bit 0 of the table's number is its least significant bit (R14). -/
def tableWord (nbits w : Nat) : Word := BitVec.ofNat 16 (w % 2 ^ nbits)

/-- The instruction the decoder reads from a table row's word laid out in memory order. -/
def decodeTableWord (nbits w : Nat) : Option Instr :=
  match decode [highByte (tableWord nbits w), lowByte (tableWord nbits w)] with
  | .instr i _ => some i
  | .unknownOpcode _ => none
  | .truncated => none

end Sys2Proof
end

