-- ==== Sys2Proof/Config.lean ====
section
/-! DEFINITION. What is fixed for the machine: the sizes of 00_scope.md R8 and R9, and the model's free value.
The parameters a later test could show wrong (the font's base and bytes, the key choice) stand in
Machine/Parameters.lean. -/

namespace Sys2Proof.Config

/-- `MEM_SIZE`: 4096 bytes, addresses 0x000 to 0xFFF (R8, R39). -/
abbrev memSize : Nat := 0x1000

/-- The highest memory address, 0xFFF (R8). -/
abbrev memTop : Nat := 0xFFF

/-- `PROGRAM_START`: the reset value of `PC` and the default load offset (R8, R146). -/
abbrev programStart : Nat := 0x200

/-- `STACK_DEPTH` (R8, R35). -/
abbrev stackDepth : Nat := 16

/-- `DISPLAY_W` (R8, R37). -/
abbrev displayW : Nat := 64

/-- `DISPLAY_H` (R8, R37). -/
abbrev displayH : Nat := 32

/-- `NUM_KEYS` (R8, R38). -/
abbrev numKeys : Nat := 16

/-- FREE VALUE. The random byte of a step for which the host's schedule names none, as an unknown function of the number
of such draws so far (R72, R111: the byte is a free input of each step; log entry 3). It has no body, so
nothing can be proved of its value. -/
opaque freeRandom : Nat → Byte

end Sys2Proof.Config
end

