-- ==== Sys2Proof/Machine/Parameters.lean ====
section
/-! DEFINITION. The parameters of 00_scope.md R9 that a claim can depend on, at the values the spec gives them: `FONT_BASE`,
`FONT_DATA`, `KEY_SELECT`. -/

namespace Sys2Proof.Machine

/-- `FONT_BASE` (R9, R40; the spec's decision D13; log entry 5). -/
def fontBase : Nat := 0x000

/-- The number of font bytes (R8). -/
def fontSize : Nat := 80

/-- `FONT_DATA`, five bytes a glyph, top row first (R41; the spec's decision D14; log entry 5). -/
def fontData : List Byte :=
  [0xF0, 0x90, 0x90, 0x90, 0xF0,  -- 0
   0x20, 0x60, 0x20, 0x20, 0x70,  -- 1
   0xF0, 0x10, 0xF0, 0x80, 0xF0,  -- 2
   0xF0, 0x10, 0xF0, 0x10, 0xF0,  -- 3
   0x90, 0x90, 0xF0, 0x10, 0x10,  -- 4
   0xF0, 0x80, 0xF0, 0x10, 0xF0,  -- 5
   0xF0, 0x80, 0xF0, 0x90, 0xF0,  -- 6
   0xF0, 0x10, 0x20, 0x40, 0x40,  -- 7
   0xF0, 0x90, 0xF0, 0x90, 0xF0,  -- 8
   0xF0, 0x90, 0xF0, 0x10, 0xF0,  -- 9
   0xF0, 0x90, 0xF0, 0x90, 0x90,  -- A
   0xE0, 0x90, 0xE0, 0x90, 0xE0,  -- B
   0xF0, 0x80, 0x80, 0x80, 0xF0,  -- C
   0xE0, 0x90, 0x90, 0x90, 0xE0,  -- D
   0xF0, 0x80, 0xF0, 0x80, 0xF0,  -- E
   0xF0, 0x80, 0xF0, 0x80, 0x80]  -- F

/-- The address of the glyph of hex digit `d` (R40, R55, R114). -/
def glyphAddress (d : Nat) : Nat := fontBase + 5 * d

/-- `key_select` with `KEY_SELECT = lowest`, this spec's value: the least pressed key, if any is pressed (R80; the spec's
decision D12; log entry 6). -/
def keySelect (keys : BitVec 16) : Option Nat :=
  (List.range 16).find? fun k => keys.getLsbD k

end Sys2Proof.Machine
end

