-- ==== Sys2Proof/Machine/State.lean ====
section
/-! DEFINITION. The engine's state as plain data (10_state.md R25 to R46), the fault kinds, the refusals, and the state
after reset (70_reset_and_hazards.md R144, R145). -/

namespace Sys2Proof.Machine

/-- The fault kinds of a step (60_exceptions.md R131). A step TAKES a fault: it answers a next state whose status holds
the record of R132 (R135), so these kinds stand in that record. No step ends in `Host.Outcome.fault`. All four
are safe: the spec states the fault and the state it leaves. -/
inductive Fault where
  /-- Code 1. Raised by fetch (odd or too high `PC`), LD F, SKP, SKNP, DRW, LD B, LD [I] and LD Vx,[I] (R131). Safe. -/
  | outOfBounds
  /-- Code 2. Raised by decode when the word matches no pattern (R69, R131). Safe. -/
  | unknownOpcode
  /-- Code 3. Raised by CALL with 16 entries on the stack (R91, R131). Safe. -/
  | stackOverflow
  /-- Code 4. Raised by RET with an empty stack (R89, R131). Safe. -/
  | stackUnderflow
deriving DecidableEq, Repr

/-- Why a step could be without a meaning. Every instruction has its meaning, so no step answers a refusal. -/
inductive Refusal where
  /-- Raised by an arm of `exec` for an instruction that has no meaning yet; no arm does so. Safe. -/
  | notModelled (mnemonic : String)
deriving DecidableEq, Repr

/-- The fault record `{kind, pc, word, info}` (R132). -/
structure FaultRecord where
  /-- The kind. -/
  kind : Fault
  /-- The address the step fetched from, which the restored `PC` holds too. -/
  pc : Word
  /-- The instruction word when fetch read one; absent for a fetch fault. -/
  word : Option Word
  /-- The diagnostic value of R131; absent for the two stack faults. -/
  info : Option Word
deriving DecidableEq, Repr

/-- The engine status (R42). -/
inductive Status where
  /-- RUN: the next step fetches at `PC`. -/
  | run
  /-- WAITKEY(x): the "awaiting key" state of LD Vx,K with its target register. -/
  | waitKey (x : RegIdx)
  /-- FAULT(r): a step has raised a fault; no step proceeds until reset. -/
  | fault (r : FaultRecord)
deriving DecidableEq, Repr

/-- The pixel buffer, `disp[py][px]`: 32 rows of 64 pixels, true is on (R37). -/
abbrev Display := Vector (Vector Bool 64) 32

/-- Memory: the bytes that differ from what an unlisted address reads as, addresses strictly rising (R39; `Memory.wf`
in Machine/Ops.lean). -/
abbrev Memory := List Host.Cell

/-- What the host does before one step, as plain data: how often it calls `tick`, and the inputs it gives the step
(R72, R83). The model's own (log entry 2). -/
structure StepInput where
  /-- Calls of `tick` since the step before (R83). -/
  ticks : Nat
  /-- The key snapshot `keys` of the step, bit k for key k (R73). -/
  keys : BitVec 16
  /-- The random byte `rnd` of the step (R72, R111). -/
  rnd : Byte
deriving DecidableEq, Repr

/-- The whole state (R25), with the inputs of the current step and the host's schedule beside it. -/
structure State where
  /-- `V[0..F]` (R26). -/
  v : Vector Byte 16
  /-- The index register `I` (R30). -/
  iReg : Word
  /-- The program counter `PC` (R32). -/
  pc : Word
  /-- `STACK[0..15]` (R35). -/
  stack : Vector Word 16
  /-- `SP`, the number of entries, 0 to 16 (R35). -/
  sp : Fin 17
  /-- The delay timer `DT` (R36). -/
  dt : Byte
  /-- The sound timer `ST` (R36). -/
  st : Byte
  /-- The pixel buffer `DISP` (R37). -/
  disp : Display
  /-- The engine status (R42). -/
  status : Status
  /-- `KEY`: the key states, owned by the host; bit k is key k (R38). -/
  keys : BitVec 16
  /-- `MEM` (R39). -/
  mem : Memory
  /-- The random byte input of the current step (R72); the model's own, no state of the spec (R46, log entry 2). -/
  rnd : Byte
  /-- The host's schedule for the steps to come, oldest first; the model's own (log entry 2). -/
  inputs : List StepInput
  /-- How many random bytes have been taken from `Config.freeRandom`; the model's own (log entry 3). -/
  draws : Nat
deriving DecidableEq, Repr

/-- The state right after `reset()` (R144, R145): registers zero, `I` zero, `PC` at 0x200, stack empty, timers zero,
display clear, status RUN, and memory with nothing listed, so that the font image stands at its place and every
other byte reads as the byte of log entry 1. The values the spec does not give (the entries of the empty stack, KEY, and
the model's own fields) are those of log entry 4. -/
def State.reset : State where
  v := Vector.replicate 16 0
  iReg := 0
  pc := 0x200
  stack := Vector.replicate 16 0
  sp := 0
  dt := 0
  st := 0
  disp := Vector.replicate 32 (Vector.replicate 64 false)
  status := .run
  keys := 0
  mem := []
  rnd := 0
  inputs := []
  draws := 0

end Sys2Proof.Machine
end

