-- ==== Sys2Proof/Machine/Ops.lean ====
section
/-! DEFINITION. The named operations over memory, registers, stack and status, taking a fault, and fetch. Everything an
instruction does to the state goes through them. -/

namespace Sys2Proof.Machine

/-! ## Memory (20_memory.md) -/

/-- What an address that memory does not list reads as: the font image where reset puts it (R40), and zero elsewhere (the
spec leaves those bytes unspecified, R39; log entry 1). -/
def absentByte (a : Nat) : Byte :=
  if fontBase ≤ a ∧ a < fontBase + fontSize then fontData.getD (a - fontBase) 0 else 0

/-- The byte that memory holds at `a`. -/
def Memory.byteAt : Memory → Nat → Byte
  | [], a => absentByte a
  | (k, b) :: m, a => if a = k then b else byteAt m a

/-- Memory with no entry for `a`. -/
def Memory.remove : Memory → Nat → Memory
  | [], _ => []
  | (k, b) :: m, a => if a = k then remove m a else (k, b) :: remove m a

/-- Memory with the entry `(a, b)` in its place. -/
def Memory.insert : Memory → Nat → Byte → Memory
  | [], a, b => [(a, b)]
  | (k, c) :: m, a, b =>
    if a < k then (a, b) :: (k, c) :: m
    else if a = k then (a, b) :: m
    else (k, c) :: insert m a b

/-- `MEM[a] <- b`, keeping the canonical form: writing what an unlisted address reads as removes the entry. -/
def Memory.put (m : Memory) (a : Nat) (b : Byte) : Memory :=
  if b = absentByte a then m.remove a else m.insert a b

/-- The canonical form: addresses strictly rising and in 0x000 to 0xFFF, no entry equal to what its address would read as
unlisted. -/
def Memory.wf : Memory → Bool
  | [] => true
  | (k, b) :: m => decide (k ≤ Config.memTop) && decide (b ≠ absentByte k) && m.all (fun c => decide (k < c.1)) && wf m

/-- `MemRead(a, 1)`; `none` stands for the raise of `OutOfBounds(a)` (R47). -/
def memRead (m : Memory) (a : Nat) : Option Byte :=
  if a > Config.memTop then none else some (m.byteAt a)

/-- `MemWrite(a, 1, b)`; `none` stands for the raise of `OutOfBounds(a)` (R48). -/
def memWrite (m : Memory) (a : Nat) (b : Byte) : Option Memory :=
  if a > Config.memTop then none else some (m.put a b)

/-- Whether the `n` addresses from `a` on all exist; a group of none always does (R53, R122, R115, R116). -/
def groupInRange (a n : Nat) : Bool := decide (n = 0 ∨ a + n - 1 ≤ Config.memTop)

/-- The bytes at `a` to `a + n - 1`, at ascending addresses (R52). -/
def Memory.bytesFrom (m : Memory) (a : Nat) : Nat → List Byte
  | 0 => []
  | n + 1 => m.byteAt a :: bytesFrom m (a + 1) n

/-- The bytes `bs` stored from `a` on, at ascending addresses (R52). -/
def Memory.putFrom (m : Memory) (a : Nat) : List Byte → Memory
  | [] => m
  | b :: bs => putFrom (m.put a b) (a + 1) bs

/-- An instruction's group of reads: all of them, or `none` when one is out of range (R53). -/
def memReadGroup (m : Memory) (a n : Nat) : Option (List Byte) :=
  if groupInRange a n then some (m.bytesFrom a n) else none

/-- An instruction's group of writes: all of them, or `none` when one is out of range, and then no byte is written (R53). -/
def memWriteGroup (m : Memory) (a : Nat) (bs : List Byte) : Option Memory :=
  if groupInRange a bs.length then some (m.putFrom a bs) else none

/-! ## Registers (10_state.md R26, R30, R32, R36) -/

/-- `V[x]`. -/
def State.reg (s : State) (x : RegIdx) : Byte := s.v[x]

/-- `V[x] <- b`. -/
def State.setReg (s : State) (x : RegIdx) (b : Byte) : State := { s with v := s.v.set x b }

/-- `V[k], V[k+1], … <- bs`, in ascending order (R117). -/
def State.setRegsFrom (s : State) (k : Nat) : List Byte → State
  | [] => s
  | b :: bs => setRegsFrom { s with v := s.v.setIfInBounds k b } (k + 1) bs

/-- `I <- a`. -/
def State.setI (s : State) (a : Word) : State := { s with iReg := a }

/-- `PC <- a` (R16). -/
def State.setPc (s : State) (a : Word) : State := { s with pc := a }

/-- `PC <- (PC + 2) mod 65536`: fetch's advance, and a skip taken (R34, R75). -/
def State.advancePc (s : State) : State := s.setPc (s.pc + 2)

/-- `PC <- PC - 2`: back to the instruction's own address `a` (R78, R126). -/
def State.rewindPc (s : State) : State := s.setPc (s.pc - 2)

/-- `if cond: PC <- PC + 2` (41_flow.md section 5). -/
def State.skipIf (s : State) (cond : Bool) : State := if cond then s.advancePc else s

/-- `DT <- b`. -/
def State.setDt (s : State) (b : Byte) : State := { s with dt := b }

/-- `ST <- b`. -/
def State.setSt (s : State) (b : Byte) : State := { s with st := b }

/-- `status <- t`. -/
def State.setStatus (s : State) (t : Status) : State := { s with status := t }

/-- `MEM <- m`. -/
def State.setMem (s : State) (m : Memory) : State := { s with mem := m }

/-- `DISP <- d`. -/
def State.setDisp (s : State) (d : Display) : State := { s with disp := d }

/-! ## The return stack (10_state.md R35) -/

/-- `STACK[j]`, for an index that need not be in range (0 when it is not). -/
def State.entry (s : State) (j : Nat) : Word := if h : j < 16 then s.stack[j] else 0

/-- Push: `STACK[SP] <- a; SP <- SP + 1`; `none` when `SP = 16`. -/
def State.push (s : State) (a : Word) : Option State :=
  if h : s.sp.val < 16 then
    some { s with stack := s.stack.set s.sp.val a, sp := ⟨s.sp.val + 1, by omega⟩ }
  else none

/-- Pop: `SP <- SP - 1`, and the entry `STACK[SP]`; `none` when `SP = 0`. -/
def State.pop (s : State) : Option (Word × State) :=
  if h : 0 < s.sp.val then
    some (s.stack[s.sp.val - 1], { s with sp := ⟨s.sp.val - 1, by omega⟩ })
  else none

/-! ## Taking a fault (R81, R132, R135) -/

/-- Fault entry from the pre-step state `s`: everything stays as it was but the status, which becomes FAULT with the
record; `PC` holds the faulting instruction's address (R81, R135). `reset` is the only way out (R136). -/
def State.takeFault (s : State) (kind : Fault) (word info : Option Word) : State :=
  s.setStatus (.fault ⟨kind, s.pc, word, info⟩)

/-- `raise kind(info)` inside the rule of instruction `i`, before any of its writes: `PC` goes back to the instruction's
address, which gives the pre-step state, and the fault is taken (R78, R81). The word fetch read is `i`'s encoding. -/
def State.raise (s : State) (i : Instr) (kind : Fault) (info : Option Word) : State :=
  s.rewindPc.takeFault kind (some (encode i)) info

/-- The diagnostic value of a group access that passes the top of memory: 0x1000 (R118, R122). -/
def beyondMemory : Word := 0x1000

/-! ## Fetch (40_engine.md R74, R75) -/

/-- The fetch check on address `a` passes: `a` is even and both bytes exist (R74). -/
def fetchOk (a : Word) : Bool := decide (a.toNat % 2 = 0) && decide (a.toNat + 1 ≤ Config.memTop)

/-- `MemRead(a, 2)`: the byte at `a`, then the byte at `a + 1`, high byte first (R49, R50). -/
def Memory.wordAt (m : Memory) (a : Nat) : Word := wordOfBytes (m.byteAt a) (m.byteAt (a + 1))

/-- The two bytes of `w` stored at `a` and `a + 1` as fetch reads them (R50). -/
def Memory.putWord (m : Memory) (a : Nat) (w : Word) : Memory := m.putFrom a [highByte w, lowByte w]

/-! ## The tick and the inputs of a step -/

/-- One timer's part of the tick: 1 less if nonzero, clamped at 0 (R36, R129). -/
def countDown (t : Byte) : Byte := if t = 0 then 0 else t - 1

/-- `tick()` (R129): the same in every status. -/
def tick (s : State) : State := { s with dt := countDown s.dt, st := countDown s.st }

/-- `n` calls of `tick` one after the other. -/
def ticks : Nat → State → State
  | 0, s => s
  | n + 1, s => ticks n (tick s)

/-- The key snapshot and the random byte handed to a step (R72, R73), in every status (log entry 27). -/
def State.withInputs (s : State) (keys : BitVec 16) (rnd : Byte) : State := { s with keys := keys, rnd := rnd }

/-- What the host does before a step (log entry 2): it calls `tick` as its schedule says and hands over the step's inputs.
Past the schedule's end it calls no tick, leaves the keys as they are, and hands over a free random byte. -/
def State.receiveInput (s : State) : State :=
  match s.inputs with
  | [] => { s with rnd := Config.freeRandom s.draws, draws := s.draws + 1 }
  | h :: rest => { (ticks h.ticks s).withInputs h.keys h.rnd with inputs := rest }

end Sys2Proof.Machine
end

