-- ==== Sys2Proof/Machine/Operands.lean ====
section
/-! DEFINITION. The operand forms of the instructions (30_encoding.md R65) and the addresses they generate (20_memory.md
R55). No immediate is sign-extended, scaled or shifted (R65). -/

namespace Sys2Proof.Machine

/-- `nnn` as a 16-bit address (R65). -/
def addrWord (nnn : Addr) : Word := nnn.setWidth 16

/-- A register's value as a 16-bit number (R13, R96). -/
def byteWord (b : Byte) : Word := b.setWidth 16

/-- The target of JP V0: the exact sum `nnn + V[0]`, never reduced modulo 4096 (R55, R96). -/
def indexedTarget (nnn : Addr) (v0 : Byte) : Word := addrWord nnn + byteWord v0

/-- The new `I` of ADD I: `(I + V[x]) mod 4096` (R55, R113). -/
def indexSum (i : Word) (b : Byte) : Word := BitVec.ofNat 16 ((i.toNat + b.toNat) % 4096)

/-- The new `I` of LD F: `FONT_BASE + 5 * V[x]` (R55, R114). -/
def glyphIndex (d : Byte) : Word := BitVec.ofNat 16 (glyphAddress d.toNat)

/-- The first address of the block, sprite or digits that `I` points at (R55): the address of entry `r` is this plus `r`. -/
def State.indexAddress (s : State) : Nat := s.iReg.toNat

/-- `V[0]` to `V[x]`, the block of LD [I],Vx (R116). -/
def State.regBlock (s : State) (x : RegIdx) : List Byte := s.v.toList.take (x.val + 1)

/-- The number of registers in the block of `x` (R52). -/
def blockSize (x : RegIdx) : Nat := x.val + 1

/-- The decimal digits hundreds, tens, ones (R115). -/
def bcdDigits (b : Byte) : List Byte :=
  [BitVec.ofNat 8 (b.toNat / 100), BitVec.ofNat 8 (b.toNat / 10 % 10), BitVec.ofNat 8 (b.toNat % 10)]

/-- The sprite's first column, `V[x] mod 64` (R122). -/
def spriteColumn (b : Byte) : Nat := b.toNat % 64

/-- The sprite's first row, `V[y] mod 32` (R122). -/
def spriteRow (b : Byte) : Nat := b.toNat % 32

/-- The key or hex digit a register names, if its value is at most 0xF (R114, R123, R124). -/
def hexDigit (b : Byte) : Option Nat := if b.toNat > 0xF then none else some b.toNat

/-- `KEY[k]` (R16, R38). -/
def State.keyPressed (s : State) (k : Nat) : Bool := s.keys.getLsbD k

end Sys2Proof.Machine
end

