-- ==== Sys2Proof/Machine/Flow.lean ====
section
/-! DEFINITION. Control flow (41_flow.md R88 to R96). Each meaning runs in the state after fetch: `PC` holds the
instruction's address plus 2 (R78). -/

namespace Sys2Proof.Machine

/-- The outcome of every meaning. -/
abbrev Result := Host.Outcome State Fault Refusal

/-- SYS addr: a no-op (R88). -/
def execSys (_nnn : Addr) (s : State) : Result := .next s

/-- RET (R89). -/
def execRet (s : State) : Result :=
  match s.pop with
  | some (a, t) => .next (t.setPc a)
  | none => .next (s.raise .ret .stackUnderflow none)

/-- JP addr (R90). -/
def execJp (nnn : Addr) (s : State) : Result := .next (s.setPc (addrWord nnn))

/-- CALL addr: pushes the advanced `PC` (R91). -/
def execCall (nnn : Addr) (s : State) : Result :=
  match s.push s.pc with
  | some t => .next (t.setPc (addrWord nnn))
  | none => .next (s.raise (.call nnn) .stackOverflow none)

/-- SE Vx, byte (R92). -/
def execSeByte (x : RegIdx) (kk : Byte) (s : State) : Result := .next (s.skipIf (s.reg x == kk))

/-- SNE Vx, byte (R93). -/
def execSneByte (x : RegIdx) (kk : Byte) (s : State) : Result := .next (s.skipIf (s.reg x != kk))

/-- SE Vx, Vy (R94). -/
def execSeReg (x y : RegIdx) (s : State) : Result := .next (s.skipIf (s.reg x == s.reg y))

/-- SNE Vx, Vy (R95). -/
def execSneReg (x y : RegIdx) (s : State) : Result := .next (s.skipIf (s.reg x != s.reg y))

/-- JP V0, addr (R96). -/
def execJpV0 (nnn : Addr) (s : State) : Result := .next (s.setPc (indexedTarget nnn (s.reg 0)))

end Sys2Proof.Machine
end

