-- ==== Sys2Proof/Machine/Alu.lean ====
section
/-! DEFINITION. Register loads, ALU and random (42_alu.md R97 to R111). The flag instructions write VF first and then
`V[x]`, each statement reading what the ones before it left (R19, R98). -/

namespace Sys2Proof.Machine

/-- LD Vx, byte (R100). -/
def execLdByte (x : RegIdx) (kk : Byte) (s : State) : Result := .next (s.setReg x kk)

/-- ADD Vx, byte: the carry is dropped, no flag (R101). -/
def execAddByte (x : RegIdx) (kk : Byte) (s : State) : Result := .next (s.setReg x (s.reg x + kk))

/-- LD Vx, Vy (R102). -/
def execLdReg (x y : RegIdx) (s : State) : Result := .next (s.setReg x (s.reg y))

/-- OR Vx, Vy (R103). -/
def execOr (x y : RegIdx) (s : State) : Result := .next (s.setReg x (s.reg x ||| s.reg y))

/-- AND Vx, Vy (R104). -/
def execAnd (x y : RegIdx) (s : State) : Result := .next (s.setReg x (s.reg x &&& s.reg y))

/-- XOR Vx, Vy (R105). -/
def execXor (x y : RegIdx) (s : State) : Result := .next (s.setReg x (s.reg x ^^^ s.reg y))

/-- ADD Vx, Vy: the exact sum of the old values, then VF, then `V[x]` (R106). -/
def execAddReg (x y : RegIdx) (s : State) : Result :=
  let sum := (s.reg x).toNat + (s.reg y).toNat
  let s1 := s.setReg vf (carryFlag sum)
  .next (s1.setReg x (BitVec.ofNat 8 sum))

/-- SUB Vx, Vy: VF, then the difference of the registers as the write of VF left them (R107). -/
def execSub (x y : RegIdx) (s : State) : Result :=
  let s1 := s.setReg vf (notBorrowFlag (s.reg x) (s.reg y))
  .next (s1.setReg x (s1.reg x - s1.reg y))

/-- SHR Vx: `y` is ignored (R99, R108). -/
def execShr (x _y : RegIdx) (s : State) : Result :=
  let s1 := s.setReg vf (shiftedOutRight (s.reg x))
  .next (s1.setReg x (s1.reg x >>> 1))

/-- SUBN Vx, Vy (R109). -/
def execSubn (x y : RegIdx) (s : State) : Result :=
  let s1 := s.setReg vf (notBorrowFlag (s.reg y) (s.reg x))
  .next (s1.setReg x (s1.reg y - s1.reg x))

/-- SHL Vx: `y` is ignored (R99, R110). -/
def execShl (x _y : RegIdx) (s : State) : Result :=
  let s1 := s.setReg vf (shiftedOutLeft (s.reg x))
  .next (s1.setReg x (s1.reg x <<< 1))

/-- RND Vx, byte: the step's random byte under the mask (R111). -/
def execRnd (x : RegIdx) (kk : Byte) (s : State) : Result := .next (s.setReg x (s.rnd &&& kk))

end Sys2Proof.Machine
end

