-- ==== Sys2Proof/Machine/IndexMemory.lean ====
section
/-! DEFINITION. Index register and memory instructions (43_index_memory.md R112 to R118). -/

namespace Sys2Proof.Machine

/-- LD I, addr (R112). -/
def execLdI (nnn : Addr) (s : State) : Result := .next (s.setI (addrWord nnn))

/-- ADD I, Vx: the one address computation that wraps at 4096 (R113). -/
def execAddI (x : RegIdx) (s : State) : Result := .next (s.setI (indexSum s.iReg (s.reg x)))

/-- LD F, Vx: a value above 0xF names no glyph (R114). -/
def execLdF (x : RegIdx) (s : State) : Result :=
  match hexDigit (s.reg x) with
  | some _ => .next (s.setI (glyphIndex (s.reg x)))
  | none => .next (s.raise (.ldF x) .outOfBounds (some (byteWord (s.reg x))))

/-- LD B, Vx (R115). -/
def execLdB (x : RegIdx) (s : State) : Result :=
  match memWriteGroup s.mem s.indexAddress (bcdDigits (s.reg x)) with
  | some m => .next (s.setMem m)
  | none => .next (s.raise (.ldB x) .outOfBounds (some beyondMemory))

/-- LD [I], Vx: `I` is unchanged (R116). -/
def execStoreRegs (x : RegIdx) (s : State) : Result :=
  match memWriteGroup s.mem s.indexAddress (s.regBlock x) with
  | some m => .next (s.setMem m)
  | none => .next (s.raise (.storeRegs x) .outOfBounds (some beyondMemory))

/-- LD Vx, [I]: `I` is unchanged (R117). -/
def execLoadRegs (x : RegIdx) (s : State) : Result :=
  match memReadGroup s.mem s.indexAddress (blockSize x) with
  | some bs => .next (s.setRegsFrom 0 bs)
  | none => .next (s.raise (.loadRegs x) .outOfBounds (some beyondMemory))

end Sys2Proof.Machine
end

