-- ==== Sys2Proof/Machine/Screen.lean ====
section
/-! DEFINITION. The pixel buffer, CLS and DRW (44_display.md R119 to R122). -/

namespace Sys2Proof.Machine

/-- `DISP[py][px]` (R37). -/
def Display.pixel (d : Display) (py : Fin 32) (px : Fin 64) : Bool := d[py][px]

/-- `DISP[py][px] <- on` (R37). -/
def Display.setPixel (d : Display) (py : Fin 32) (px : Fin 64) (on : Bool) : Display :=
  d.set py (d[py].set px on)

/-- The clear buffer (R121). -/
def Display.clear : Display := Vector.replicate 32 (Vector.replicate 64 false)

/-- A drawing in progress: the buffer and `collide` (R122). -/
structure Canvas where
  /-- The buffer so far. -/
  disp : Display
  /-- Whether a pixel has gone from on to off. -/
  collide : Bool
deriving DecidableEq, Repr

/-- Flips one pixel; an on-to-off change is a collision (R122). -/
def Canvas.flip (c : Canvas) (py : Fin 32) (px : Fin 64) : Canvas where
  disp := c.disp.setPixel py px (!c.disp.pixel py px)
  collide := c.collide || c.disp.pixel py px

/-- Bit `7 - c` of a sprite byte: column offset `c`, bit 7 leftmost (R120). -/
def spriteBit (b : Byte) (c : Nat) : Bool := b.getLsbD (7 - c)

/-- Column offset `c` of a sprite row at columns `x0` on; columns wrap modulo 64 (R122). -/
def Canvas.drawBit (py : Fin 32) (x0 : Nat) (b : Byte) (cv : Canvas) (c : Nat) : Canvas :=
  if spriteBit b c then cv.flip py (Fin.ofNat 64 (x0 + c)) else cv

/-- One sprite row: column offsets 0 to 7 in order (R122). -/
def Canvas.drawRow (py : Fin 32) (x0 : Nat) (b : Byte) (cv : Canvas) : Canvas :=
  (List.range 8).foldl (Canvas.drawBit py x0 b) cv

/-- The sprite rows `bs` from row `py` on, top first; a row past 31 is skipped, not wrapped (R122). -/
def Canvas.drawRows (x0 : Nat) : Nat → List Byte → Canvas → Canvas
  | _, [], cv => cv
  | py, b :: bs, cv =>
    drawRows x0 (py + 1) bs (if h : py < 32 then cv.drawRow ⟨py, h⟩ x0 b else cv)

/-- CLS (R121). -/
def execCls (s : State) : Result := .next (s.setDisp Display.clear)

/-- DRW Vx, Vy, n (R122): both coordinates are read before any write, the check covers all `n` bytes, VF is written last. -/
def execDrw (x y : RegIdx) (n : Nibble) (s : State) : Result :=
  match memReadGroup s.mem s.indexAddress n.toNat with
  | some bs =>
    let cv := Canvas.drawRows (spriteColumn (s.reg x)) (spriteRow (s.reg y)) bs ⟨s.disp, false⟩
    .next ((s.setDisp cv.disp).setReg vf (flagByte cv.collide))
  | none => .next (s.raise (.drw x y n) .outOfBounds (some beyondMemory))

end Sys2Proof.Machine
end

