-- ==== Sys2Proof/Machine/TimersInput.lean ====
section
/-! DEFINITION. Key input and timer instructions (45_timers_input.md R123 to R128) and the key wait (40_engine.md R79, R80). -/

namespace Sys2Proof.Machine

/-- SKP Vx (R123). -/
def execSkp (x : RegIdx) (s : State) : Result :=
  match hexDigit (s.reg x) with
  | some k => .next (s.skipIf (s.keyPressed k))
  | none => .next (s.raise (.skp x) .outOfBounds (some (byteWord (s.reg x))))

/-- SKNP Vx (R124). -/
def execSknp (x : RegIdx) (s : State) : Result :=
  match hexDigit (s.reg x) with
  | some k => .next (s.skipIf (!s.keyPressed k))
  | none => .next (s.raise (.sknp x) .outOfBounds (some (byteWord (s.reg x))))

/-- LD Vx, DT (R125). -/
def execLdVxDt (x : RegIdx) (s : State) : Result := .next (s.setReg x s.dt)

/-- LD Vx, K (R126): a key already pressed completes it at once; else `PC` goes back to `a` and the engine waits. -/
def execLdVxK (x : RegIdx) (s : State) : Result :=
  match keySelect s.keys with
  | some k => .next (s.setReg x (BitVec.ofNat 8 k))
  | none => .next (s.rewindPc.setStatus (.waitKey x))

/-- LD DT, Vx (R127). -/
def execLdDtVx (x : RegIdx) (s : State) : Result := .next (s.setDt (s.reg x))

/-- LD ST, Vx (R128). -/
def execLdStVx (x : RegIdx) (s : State) : Result := .next (s.setSt (s.reg x))

/-- A step in status WAITKEY(x): fetches nothing and polls the snapshot (R79). -/
def waitStep (x : RegIdx) (s : State) : State :=
  match keySelect s.keys with
  | some k => ((s.setReg x (BitVec.ofNat 8 k)).advancePc).setStatus .run
  | none => s

end Sys2Proof.Machine
end

