-- ==== Sys2Proof/Machine/Cycle.lean ====
section
/-! DEFINITION. The sequencer: one fetch-decode-execute cycle (40_engine.md R72 to R82), and placing a word where it will
be fetched. Machine/Step.lean only calls these. -/

namespace Sys2Proof.Machine

/-- A cycle in status RUN (R72): the fetch check, fetch with the advance of `PC`, decode, execute. The checks come in this
order (R133), and a fault is taken from the pre-step state (R81). -/
def runCycle (s : State) : Result :=
  if fetchOk s.pc then
    let w := s.mem.wordAt s.pc.toNat
    match decodeWord w with
    | some i => exec i s.advancePc
    | none => .next (s.takeFault .unknownOpcode (some w) (some w))
  else .next (s.takeFault .outOfBounds none (some s.pc))

/-- `step(keys, rnd)` of R72 on a state that holds the step's inputs: in FAULT nothing changes (R82), in WAITKEY the engine
polls the keys (R79), in RUN it runs a cycle. The pre-step state of a fault holds the step's KEY (log entry 27). -/
def engineStep (s : State) : Result :=
  match s.status with
  | .fault _ => .next s
  | .waitKey x => .next (waitStep x s)
  | .run => runCycle s

/-- What a step or any other operation reports to the host: the fault record in status FAULT, else ok (R11, R72, R82). -/
def State.report (s : State) : Option FaultRecord :=
  match s.status with
  | .fault r => some r
  | .waitKey _ => none
  | .run => none

/-- The state `s` made ready to fetch the word `w` next: status RUN, `PC` at an address the fetch check accepts (kept if it
is one, else the entry point), and the word's bytes there. A program is loaded from outside the engine (R84, R148; log entry 7). -/
def State.placeWord (s : State) (w : Word) : State :=
  let a : Word := if fetchOk s.pc then s.pc else 0x200
  { s with pc := a, status := .run, mem := s.mem.putWord a.toNat w }

end Sys2Proof.Machine
end

