-- ==== Sys2Proof/Machine/Step.lean ====
section
/-! DEFINITION. The machine's step, and the state in which its next step runs a given word. -/

namespace Sys2Proof.Machine

/-- One step of the machine: the host does what its schedule says, then the engine runs `step(keys, rnd)` (R72, R83). -/
def step (s : State) : Host.Outcome State Fault Refusal := engineStep s.receiveInput

/-- `s` with the instruction of `nbits` bits `w` stored where `step` fetches next. -/
def State.withFetchWord (s : State) (nbits w : Nat) : State := s.placeWord (tableWord nbits w)

end Sys2Proof.Machine
end

