-- ==== Sys2Proof/Machine/HostOps.lean ====
section
/-! DEFINITION. The other operations the host drives the engine with (00_scope.md R11, R12): `reset`, `load_program`, the
accessors, the outputs, and whole sessions of operations (40_engine.md R83 to R87, 70_reset_and_hazards.md R144 to R148). -/

namespace Sys2Proof.Machine

/-- Why a host operation fails. A failure changes nothing and never enters FAULT (R84, R86). -/
inductive HostError where
  /-- `OutOfBounds`, with the offending offset for a load (R84); an accessor names no value (R86). -/
  | outOfBounds (info : Option Nat)
  /-- `ProgramTooLarge` (R84). -/
  | programTooLarge
deriving DecidableEq, Repr

/-! ## Reset (R144, R145) -/

/-- `FONT_DATA` copied over memory at `FONT_BASE` (R40, R144). -/
def loadFont (m : Memory) : Memory := m.putFrom fontBase fontData

/-- `reset()` on any state (R144). Bytes outside the font image hold unspecified values afterwards (R39): `initial`
supplies them, and a claim holds for every `initial`. KEY is the host's and stays (R145). The entries of the empty stack, and
the model's own fields, stay too. -/
def State.resetOp (s : State) (initial : Memory) : State :=
  { s with
    v := Vector.replicate 16 0
    iReg := 0
    pc := 0x200
    sp := 0
    dt := 0
    st := 0
    disp := Vector.replicate 32 (Vector.replicate 64 false)
    status := .run
    mem := loadFont initial }

/-! ## Loading a program (R84) -/

/-- `load_program(bytes, offset)` (R84). It changes memory alone; `PC` is left as it was. -/
def loadProgram (bytes : List Byte) (offset : Nat) (s : State) : Except HostError State :=
  if offset < Config.programStart ∨ offset > Config.memTop then .error (.outOfBounds (some offset))
  else if offset + bytes.length > Config.memSize then .error .programTooLarge
  else .ok (s.setMem (s.mem.putFrom offset bytes))

/-! ## Accessors (R86): each bounds-checked, a failure returns `OutOfBounds` -/

/-- The failure of an accessor. -/
def accessorError {α : Type} : Except HostError α := .error (.outOfBounds none)

/-- Register read, `i <= 0xF`. -/
def readV (s : State) (i : Nat) : Except HostError Byte :=
  if h : i < 16 then .ok (s.reg ⟨i, h⟩) else accessorError

/-- Register write, `i <= 0xF`. -/
def writeV (s : State) (i : Nat) (b : Byte) : Except HostError State :=
  if h : i < 16 then .ok (s.setReg ⟨i, h⟩ b) else accessorError

/-- Memory read, `a <= 0xFFF`. -/
def readMem (s : State) (a : Nat) : Except HostError Byte :=
  match memRead s.mem a with
  | some b => .ok b
  | none => accessorError

/-- Memory write, `a <= 0xFFF`. -/
def writeMem (s : State) (a : Nat) (b : Byte) : Except HostError State :=
  match memWrite s.mem a b with
  | some m => .ok (s.setMem m)
  | none => accessorError

/-- `PC` read. -/
def readPc (s : State) : Word := s.pc

/-- `PC` write, `PC <= 0xFFF`. -/
def writePc (s : State) (a : Nat) : Except HostError State :=
  if a ≤ 0xFFF then .ok (s.setPc (BitVec.ofNat 16 a)) else accessorError

/-- `I` read. -/
def readI (s : State) : Word := s.iReg

/-- `I` write, `I <= 0xFFF` (R31). -/
def writeI (s : State) (a : Nat) : Except HostError State :=
  if a ≤ 0xFFF then .ok (s.setI (BitVec.ofNat 16 a)) else accessorError

/-- Stack entry read, `j < SP`. -/
def readStack (s : State) (j : Nat) : Except HostError Word :=
  if h : j < s.sp.val then .ok (s.stack[j]) else accessorError

/-- Stack entry write, `j < SP`. -/
def writeStack (s : State) (j : Nat) (a : Word) : Except HostError State :=
  if h : j < s.sp.val then .ok { s with stack := s.stack.set j a } else accessorError

/-- `SP` read. -/
def readSp (s : State) : Nat := s.sp.val

/-- `SP` write, `0 <= SP <= 16`. -/
def writeSp (s : State) (n : Nat) : Except HostError State :=
  if h : n < 17 then .ok { s with sp := ⟨n, h⟩ } else accessorError

/-- Host push: fails when `SP` would pass 16. -/
def hostPush (s : State) (a : Word) : Except HostError State :=
  match s.push a with
  | some t => .ok t
  | none => accessorError

/-- Host pop: fails when `SP` would fall below 0. -/
def hostPop (s : State) : Except HostError (Word × State) :=
  match s.pop with
  | some r => .ok r
  | none => accessorError

/-- `DT` read. -/
def readDt (s : State) : Byte := s.dt

/-- `DT` write, 8 bits. -/
def writeDt (s : State) (b : Byte) : State := s.setDt b

/-- `ST` write, 8 bits. -/
def writeSt (s : State) (b : Byte) : State := s.setSt b

/-- Pixel read, `py <= 31`, `px <= 63`. -/
def readPixel (s : State) (py px : Nat) : Except HostError Bool :=
  if h : py < 32 ∧ px < 64 then .ok (s.disp.pixel ⟨py, h.1⟩ ⟨px, h.2⟩) else accessorError

/-- Pixel write, `py <= 31`, `px <= 63`. -/
def writePixel (s : State) (py px : Nat) (on : Bool) : Except HostError State :=
  if h : py < 32 ∧ px < 64 then .ok (s.setDisp (s.disp.setPixel ⟨py, h.1⟩ ⟨px, h.2⟩ on)) else accessorError

/-- Key read, `k <= 0xF`. -/
def readKey (s : State) (k : Nat) : Except HostError Bool :=
  if k < Config.numKeys then .ok (s.keyPressed k) else accessorError

/-! ## Outputs (R11) -/

/-- `display`: the pixel buffer as the last operation left it (R119). -/
def displayOutput (s : State) : Display := s.disp

/-- `sound`: the sound timer's value (R130). -/
def soundOutput (s : State) : Byte := s.st

/-- The tone is on when `ST != 0` (R130). -/
def toneOn (s : State) : Bool := s.st != 0

/-- `FAULT_KIND` (R43, R131). -/
def Fault.code : Fault → BitVec 3
  | .outOfBounds => 1
  | .unknownOpcode => 2
  | .stackOverflow => 3
  | .stackUnderflow => 4

/-- The status as the register of R43. -/
structure StatusRegister where
  /-- 1 in WAITKEY(x). -/
  await : BitVec 1
  /-- The `x` of WAITKEY(x), else 0. -/
  awaitReg : Nibble
  /-- 1 in FAULT(r). -/
  faulted : BitVec 1
  /-- The kind's code, 0 for none. -/
  faultKind : BitVec 3
  /-- `r.pc`. -/
  faultPc : Word
  /-- 1 when `r.word` is present. -/
  faultWordValid : BitVec 1
  /-- `r.word`, 0 when absent. -/
  faultWord : Word
  /-- `r.info`, 0 when absent. -/
  faultInfo : Word
deriving DecidableEq, Repr

/-- `status` as the host reads it, field by field (R11, R43). -/
def Status.register : Status → StatusRegister
  | .run => ⟨0, 0, 0, 0, 0, 0, 0, 0⟩
  | .waitKey x => ⟨1, x.toNibble, 0, 0, 0, 0, 0, 0⟩
  | .fault r => ⟨0, 0, 1, r.kind.code, r.pc, if r.word.isSome then 1 else 0, r.word.getD 0, r.info.getD 0⟩

/-! ## Operations and sessions (R11, R85, R87, R148) -/

/-- The host's operations in a session (R11). -/
inductive HostOp where
  /-- `reset()`, with the bytes memory then holds outside the font image. -/
  | reset (initial : Memory)
  /-- `load_program(bytes, offset)`. -/
  | loadProgram (bytes : List Byte) (offset : Nat)
  /-- Setting `PC` to the offset of a load, step 4 of the boot order (R148). -/
  | setPc (a : Nat)
  /-- `step(keys, rnd)`. -/
  | step (keys : BitVec 16) (rnd : Byte)
  /-- `tick()`. -/
  | tick
deriving DecidableEq, Repr

/-- `step(keys, rnd)` with explicit inputs (R72): the state after it. It never fails to have one. DESIGN CHOICE (log entry 27):
the snapshot stands in KEY before anything else, so a step that faults, and a step in FAULT, leave the new snapshot there. -/
def stepWith (keys : BitVec 16) (rnd : Byte) (s : State) : State :=
  match engineStep (s.withInputs keys rnd) with
  | .next t => t
  | .fault _ => s
  | .refused _ => s

/-- One operation on the state (R11): its next state, or the error it returns. -/
def operate : HostOp → State → Except HostError State
  | .reset initial, s => .ok (s.resetOp initial)
  | .loadProgram bytes offset, s => Sys2Proof.Machine.loadProgram bytes offset s
  | .setPc a, s => writePc s a
  | .step keys rnd, s => .ok (stepWith keys rnd s)
  | .tick, s => .ok (Sys2Proof.Machine.tick s)

/-- Where a session stands (R147, R148). -/
inductive Phase where
  /-- Constructed and not reset yet. -/
  | constructed
  /-- After a reset, before the first step. -/
  | ready
  /-- A step has run. -/
  | running
deriving DecidableEq, Repr

/-- Which operations a phase admits, and the phase after: a run starts from a reset (R147), and loading and setting `PC`
come after it and before the first step (R85, R87, R148). `none`: outside the model (D25, D30). -/
def Phase.accept : Phase → HostOp → Option Phase
  | _, .reset _ => some .ready
  | .constructed, .loadProgram _ _ => none
  | .constructed, .setPc _ => none
  | .constructed, .step _ _ => none
  | .constructed, .tick => none
  | .ready, .loadProgram _ _ => some .ready
  | .ready, .setPc _ => some .ready
  | .ready, .step _ _ => some .running
  | .ready, .tick => some .ready
  | .running, .loadProgram _ _ => none
  | .running, .setPc _ => none
  | .running, .step _ _ => some .running
  | .running, .tick => some .running

/-- A session: operations in the host's order, any interleaving of steps and ticks (R83). `none` when an operation is not
admitted, or when a load or the `PC` write fails, and then the session does not start (R148). -/
def session : Phase → State → List HostOp → Option State
  | _, s, [] => some s
  | p, s, op :: ops =>
    match p.accept op with
    | none => none
    | some q =>
      match operate op s with
      | .ok t => session q t ops
      | .error _ => none

/-- The boot order of R148: reset, load, and `PC` set to the offset when that is not the entry point. -/
def boot (initial : Memory) (bytes : List Byte) (offset : Nat) (s : State) : Except HostError State :=
  match loadProgram bytes offset (s.resetOp initial) with
  | .ok t => if offset = Config.programStart then .ok t else writePc t offset
  | .error e => .error e

end Sys2Proof.Machine
end

