-- ==== Sys2Proof/Safety.lean ====
section
/-! DEFINITION. What claims about runs are stated in: the machine's invariant, the table of faults, the ended run, and the
tables of what each instruction writes. The tables are written from the spec's tables, not from the meanings. -/

namespace Sys2Proof.Machine

/-! ## The faults of a step (60_exceptions.md R131) -/

/-- R131's table: the fault instruction `i` raises in the state after fetch, if any, with its diagnostic value. -/
def raises (i : Instr) (s : State) : Option (Fault × Option Word) :=
  match i with
  | .ldF x | .skp x | .sknp x =>
    if (s.reg x).toNat > 0xF then some (.outOfBounds, some ((s.reg x).setWidth 16)) else none
  | .drw _ _ n => if n.toNat > 0 ∧ s.iReg.toNat + n.toNat - 1 > 0xFFF then some (.outOfBounds, some 0x1000) else none
  | .ldB _ => if s.iReg.toNat + 2 > 0xFFF then some (.outOfBounds, some 0x1000) else none
  | .storeRegs x | .loadRegs x => if s.iReg.toNat + x.val > 0xFFF then some (.outOfBounds, some 0x1000) else none
  | .call _ => if s.sp.val = 16 then some (.stackOverflow, none) else none
  | .ret => if s.sp.val = 0 then some (.stackUnderflow, none) else none
  | .cls | .sys _ | .jp _ | .seByte _ _ | .sneByte _ _ | .seReg _ _ | .ldByte _ _ | .addByte _ _ | .ldReg _ _
  | .orReg _ _ | .andReg _ _ | .xorReg _ _ | .addReg _ _ | .subReg _ _ | .shr _ _ | .subn _ _ | .shl _ _
  | .sneReg _ _ | .ldI _ | .jpV0 _ | .rnd _ _ | .ldVxDt _ | .ldVxK _ | .ldDtVx _ | .ldStVx _ | .addI _ => none

/-- The fault record a step in status RUN ends with, if it faults: the fetch check, then decode, then the instruction's own
check (R131, R132, R133). -/
def State.faultOf (s : State) : Option FaultRecord :=
  if s.pc.toNat % 2 = 1 ∨ s.pc.toNat + 1 > 0xFFF then some ⟨.outOfBounds, s.pc, none, some s.pc⟩
  else
    let w := s.mem.wordAt s.pc.toNat
    match decodeWord w with
    | none => some ⟨.unknownOpcode, s.pc, some w, some w⟩
    | some i =>
      match raises i s with
      | none => none
      | some (k, info) => some ⟨k, s.pc, some w, info⟩

/-- The engine has not faulted. -/
def State.safe (s : State) : Bool := s.report.isNone

/-! ## The invariant -/

/-- The addresses a status speaks of are those of an instruction that was fetched or refused at `PC`: a wait stands at a
fetchable address (R79, R126), and a fault's record names the `PC` the state holds (R132). -/
def State.statusFits (s : State) : Bool :=
  match s.status with
  | .run => true
  | .waitKey _ => fetchOk s.pc
  | .fault r => decide (r.pc = s.pc)

/-- What every operation of a session keeps: memory in its canonical form and inside the address space, `I` at most 0xFFF
(R31), `PC` at most 0x10FE (R34), every entry on the stack at most 0x1000 (R34, R91), and the status in agreement with
`PC`. -/
structure State.Inv (s : State) : Prop where
  /-- Memory's canonical form (R39). -/
  memWf : s.mem.wf = true
  /-- R31. -/
  iBound : s.iReg.toNat ≤ 0xFFF
  /-- R34. -/
  pcBound : s.pc.toNat ≤ 0x10FE
  /-- R34, R91: an entry is the address of a CALL plus 2. -/
  stackBound : ∀ j : Fin 16, j.val < s.sp.val → s.stack[j].toNat ≤ 0x1000
  /-- R79, R132. -/
  statusFits : s.statusFits = true

/-- An ended run (R156): status RUN, and at `PC` the word `1nnn` with `nnn = PC`. DESIGN CHOICE (log entry 26): `PC` must pass
the fetch check too, since at an odd `PC` with those bytes the next step faults (R74) and the run is not at rest. -/
def State.ended (s : State) : Bool :=
  s.status == .run && fetchOk s.pc && s.mem.wordAt s.pc.toNat == 0x1000#16 + s.pc

/-! ## Words written as numbers, as the pattern column of the opcode table reads (R64, R71) -/

/-- The pattern `unnn`. -/
def wordN (u : Nat) (nnn : Addr) : Word := BitVec.ofNat 16 (u * 4096 + nnn.toNat)

/-- The pattern `uxkk`. -/
def wordK (u : Nat) (x : RegIdx) (kk : Byte) : Word := BitVec.ofNat 16 (u * 4096 + x.val * 256 + kk.toNat)

/-- The pattern `uxyn`. -/
def wordXY (u : Nat) (x y : RegIdx) (n : Nat) : Word := BitVec.ofNat 16 (u * 4096 + x.val * 256 + y.val * 16 + n)

/-- The state a fault of the instruction at `a = PC - 2` leaves: all as before the step, the status apart (R81, R135). -/
def faulted (s : State) (i : Instr) (k : Fault) (info : Option Word) : State :=
  { s with pc := s.pc - 2, status := .fault ⟨k, s.pc - 2, some (encode i), info⟩ }

/-! ## What each instruction writes -/

/-- R28's table: the general registers an instruction writes. -/
def destRegs : Instr → List RegIdx
  | .ldByte x _ | .addByte x _ | .ldReg x _ | .orReg x _ | .andReg x _ | .xorReg x _ | .rnd x _ | .ldVxDt x
  | .ldVxK x => [x]
  | .addReg x _ | .subReg x _ | .shr x _ | .subn x _ | .shl x _ => [vf, x]
  | .drw _ _ _ => [vf]
  | .loadRegs x => (List.finRange 16).filter fun r => decide (r ≤ x)
  | .cls | .ret | .sys _ | .jp _ | .call _ | .seByte _ _ | .sneByte _ _ | .seReg _ _ | .sneReg _ _ | .ldI _
  | .jpV0 _ | .skp _ | .sknp _ | .ldDtVx _ | .ldStVx _ | .addI _ | .ldF _ | .ldB _ | .storeRegs _ => []

/-- R30's list: the instructions that write `I`. -/
def writesI : Instr → Bool
  | .ldI _ | .addI _ | .ldF _ => true
  | .cls | .ret | .sys _ | .jp _ | .call _ | .seByte _ _ | .sneByte _ _ | .seReg _ _ | .ldByte _ _ | .addByte _ _
  | .ldReg _ _ | .orReg _ _ | .andReg _ _ | .xorReg _ _ | .addReg _ _ | .subReg _ _ | .shr _ _ | .subn _ _
  | .shl _ _ | .sneReg _ _ | .jpV0 _ | .rnd _ _ | .drw _ _ _ | .skp _ | .sknp _ | .ldVxDt _ | .ldVxK _
  | .ldDtVx _ | .ldStVx _ | .ldB _ | .storeRegs _ | .loadRegs _ => false

/-- R35: the instructions that move the stack. -/
def writesStack : Instr → Bool
  | .call _ | .ret => true
  | .cls | .sys _ | .jp _ | .seByte _ _ | .sneByte _ _ | .seReg _ _ | .ldByte _ _ | .addByte _ _
  | .ldReg _ _ | .orReg _ _ | .andReg _ _ | .xorReg _ _ | .addReg _ _ | .subReg _ _ | .shr _ _ | .subn _ _
  | .shl _ _ | .sneReg _ _ | .ldI _ | .jpV0 _ | .rnd _ _ | .drw _ _ _ | .skp _ | .sknp _ | .ldVxDt _ | .ldVxK _
  | .ldDtVx _ | .ldStVx _ | .addI _ | .ldF _ | .ldB _ | .storeRegs _ | .loadRegs _ => false

/-- R37: the instructions that change the pixel buffer. -/
def writesDisplay : Instr → Bool
  | .cls | .drw _ _ _ => true
  | .ret | .sys _ | .jp _ | .call _ | .seByte _ _ | .sneByte _ _ | .seReg _ _ | .ldByte _ _ | .addByte _ _
  | .ldReg _ _ | .orReg _ _ | .andReg _ _ | .xorReg _ _ | .addReg _ _ | .subReg _ _ | .shr _ _ | .subn _ _
  | .shl _ _ | .sneReg _ _ | .ldI _ | .jpV0 _ | .rnd _ _ | .skp _ | .sknp _ | .ldVxDt _ | .ldVxK _
  | .ldDtVx _ | .ldStVx _ | .addI _ | .ldF _ | .ldB _ | .storeRegs _ | .loadRegs _ => false

/-- R52's table: how many bytes an instruction stores, from the address in `I` on. -/
def storeCount : Instr → Nat
  | .ldB _ => 3
  | .storeRegs x => x.val + 1
  | .cls | .ret | .sys _ | .jp _ | .call _ | .seByte _ _ | .sneByte _ _ | .seReg _ _ | .ldByte _ _ | .addByte _ _
  | .ldReg _ _ | .orReg _ _ | .andReg _ _ | .xorReg _ _ | .addReg _ _ | .subReg _ _ | .shr _ _ | .subn _ _
  | .shl _ _ | .sneReg _ _ | .ldI _ | .jpV0 _ | .rnd _ _ | .drw _ _ _ | .skp _ | .sknp _ | .ldVxDt _ | .ldVxK _
  | .ldDtVx _ | .ldStVx _ | .addI _ | .ldF _ | .loadRegs _ => 0

/-- R32's table: `PC` after an instruction that raises no fault, from the state after fetch, in which `PC` is `a + 2`. -/
def pcAfter (i : Instr) (s : State) : Word :=
  match i with
  | .jp nnn | .call nnn => nnn.setWidth 16
  | .jpV0 nnn => nnn.setWidth 16 + (s.reg 0).setWidth 16
  | .ret => s.entry (s.sp.val - 1)
  | .seByte x kk => if s.reg x = kk then s.pc + 2 else s.pc
  | .sneByte x kk => if s.reg x ≠ kk then s.pc + 2 else s.pc
  | .seReg x y => if s.reg x = s.reg y then s.pc + 2 else s.pc
  | .sneReg x y => if s.reg x ≠ s.reg y then s.pc + 2 else s.pc
  | .skp x => if s.keys.getLsbD (s.reg x).toNat then s.pc + 2 else s.pc
  | .sknp x => if s.keys.getLsbD (s.reg x).toNat then s.pc else s.pc + 2
  | .ldVxK _ => if s.keys = 0 then s.pc - 2 else s.pc
  | .cls | .sys _ | .ldByte _ _ | .addByte _ _ | .ldReg _ _ | .orReg _ _ | .andReg _ _ | .xorReg _ _ | .addReg _ _
  | .subReg _ _ | .shr _ _ | .subn _ _ | .shl _ _ | .ldI _ | .rnd _ _ | .drw _ _ _ | .ldVxDt _
  | .ldDtVx _ | .ldStVx _ | .addI _ | .ldF _ | .ldB _ | .storeRegs _ | .loadRegs _ => s.pc

/-- The sprite's pixel at `(py, px)` (R120, R122): the sprite of bytes `bs` drawn at column `x0` and row `y0` has its bit
set there; columns wrap, rows clip. -/
def spriteCovers (bs : List Byte) (x0 y0 : Nat) (py : Fin 32) (px : Fin 64) : Bool :=
  match bs[py.val - y0]? with
  | none => false
  | some b => decide (y0 ≤ py.val) && (List.range 8).any fun c => b.getLsbD (7 - c) && decide ((x0 + c) % 64 = px.val)

end Sys2Proof.Machine
end

