-- ==== Sys2Proof/Certificates/Slice0/Obligations.lean ====
section
/-! DEFINITION. The statements for the provers. Each says which rule of the spec it formalises. The state `s` an instruction's
statement speaks of is the state after fetch, in which `PC` is the instruction's address plus 2 (40_engine.md R78). -/

open Sys2Proof Sys2Proof.Machine

/-! ## Reset and the host's operations -/

/-- R145: the value of every piece of state after `reset()` on any state, whatever bytes memory then holds outside the
font image. The values of `I`, the font and the status are the spec's decisions D13, D14, D20 to D22. -/
def Obligations.ResetSetsEveryPieceOfState : Prop :=
  ∀ (s : State) (initial : Memory),
    let t := s.resetOp initial
    (∀ x, t.reg x = 0) ∧ t.iReg = 0 ∧ t.pc = 0x200 ∧ t.sp.val = 0 ∧ t.dt = 0 ∧ t.st = 0 ∧
    (∀ py px, t.disp.pixel py px = false) ∧
    (∀ j, j < 80 → t.mem.byteAt (fontBase + j) = fontData.getD j 0) ∧
    (∀ a, a < fontBase ∨ fontBase + 80 ≤ a → t.mem.byteAt a = initial.byteAt a) ∧
    t.status = .run ∧ t.keys = s.keys

/-- The model's start state is a reset state whose memory lists nothing, so that the font stands at its place (R40, R144;
the other bytes are log entry 1's). The font is the spec's decisions D13 and D14. -/
def Obligations.StartStateIsAResetState : Prop :=
  State.reset.resetOp [] = State.reset ∧
  ∀ d < 16, ∀ r < 5, State.reset.mem.byteAt (fontBase + 5 * d + r) = fontData.getD (5 * d + r) 0

/-- R84: `load_program` checks the offset, then the size, and copies the bytes; a failing load gives no state, and a load
changes memory alone. The range of the offset is the spec's decision D24. -/
def Obligations.LoadProgramCopiesOrFails : Prop :=
  ∀ (bytes : List Byte) (offset : Nat) (s : State),
    (offset < 0x200 ∨ offset > 0xFFF → loadProgram bytes offset s = .error (.outOfBounds (some offset))) ∧
    (0x200 ≤ offset ∧ offset ≤ 0xFFF ∧ offset + bytes.length > 0x1000 →
      loadProgram bytes offset s = .error .programTooLarge) ∧
    (0x200 ≤ offset ∧ offset ≤ 0xFFF ∧ offset + bytes.length ≤ 0x1000 →
      ∃ t, loadProgram bytes offset s = .ok t ∧ t = { s with mem := t.mem } ∧
        (∀ j, j < bytes.length → t.mem.byteAt (offset + j) = bytes.getD j 0) ∧
        ∀ a, a < offset ∨ offset + bytes.length ≤ a → t.mem.byteAt a = s.mem.byteAt a)

/-- R86's table: every accessor answers inside its bounds, with the value or the state it names, and fails outside them.
The bounds are the spec's decision D30. That a failing accessor names no value and that a write of SP leaves the entries
is the model's choice (DEDUCED, log entry 23). -/
def Obligations.AccessorsAreBoundsChecked : Prop :=
  ∀ (s : State) (n m : Nat) (b : Byte) (w : Word) (on : Bool),
    (∀ x : RegIdx, readV s x.val = .ok (s.reg x) ∧ writeV s x.val b = .ok (s.setReg x b)) ∧
    (n > 0xF → readV s n = accessorError ∧ writeV s n b = accessorError) ∧
    (n ≤ 0xFFF → readMem s n = .ok (s.mem.byteAt n) ∧ ∃ t, writeMem s n b = .ok t ∧ t = { s with mem := t.mem } ∧
      ∀ a, t.mem.byteAt a = if a = n then b else s.mem.byteAt a) ∧
    (n > 0xFFF → readMem s n = accessorError ∧ writeMem s n b = accessorError) ∧
    readPc s = s.pc ∧ readI s = s.iReg ∧ readSp s = s.sp.val ∧ readDt s = s.dt ∧
    (n ≤ 0xFFF → writePc s n = .ok { s with pc := BitVec.ofNat 16 n } ∧
      writeI s n = .ok { s with iReg := BitVec.ofNat 16 n }) ∧
    (n > 0xFFF → writePc s n = accessorError ∧ writeI s n = accessorError) ∧
    (n < s.sp.val → readStack s n = .ok (s.entry n) ∧
      ∃ t, writeStack s n w = .ok t ∧ t = { s with stack := t.stack } ∧
        ∀ j, t.entry j = if j = n then w else s.entry j) ∧
    (n ≥ s.sp.val → readStack s n = accessorError ∧ writeStack s n w = accessorError) ∧
    (n ≤ 16 → ∃ t, writeSp s n = .ok t ∧ t.sp.val = n ∧ t = { s with sp := t.sp }) ∧
    (n > 16 → writeSp s n = accessorError) ∧
    (s.sp.val = 16 → hostPush s w = accessorError) ∧ (s.sp.val = 0 → hostPop s = accessorError) ∧
    (s.sp.val < 16 → ∃ t, hostPush s w = .ok t ∧ t = { s with stack := t.stack, sp := t.sp } ∧ t.sp.val = s.sp.val + 1 ∧
      ∀ j, t.entry j = if j = s.sp.val then w else s.entry j) ∧
    (0 < s.sp.val → ∃ t, hostPop s = .ok (s.entry (s.sp.val - 1), t) ∧ t = { s with sp := t.sp } ∧ t.sp.val + 1 = s.sp.val) ∧
    writeDt s b = { s with dt := b } ∧ writeSt s b = { s with st := b } ∧
    (∀ (py : Fin 32) (px : Fin 64), readPixel s py.val px.val = .ok (s.disp.pixel py px) ∧
      ∃ t, writePixel s py.val px.val on = .ok t ∧ t = { s with disp := t.disp } ∧
        ∀ qy qx, t.disp.pixel qy qx = if qy = py ∧ qx = px then on else s.disp.pixel qy qx) ∧
    (n > 31 ∨ m > 63 → readPixel s n m = accessorError ∧ writePixel s n m on = accessorError) ∧
    (n ≤ 0xF → readKey s n = .ok (s.keys.getLsbD n)) ∧ (n > 0xF → readKey s n = accessorError)

/-- The status register of R43, every field of it, in each of the three statuses. The layout is the spec's decision D4
(log entry 9). -/
def Obligations.StatusRegisterShowsTheStatus : Prop :=
  (Status.register .run = ⟨0, 0, 0, 0, 0, 0, 0, 0⟩) ∧
  (∀ x : RegIdx, Status.register (.waitKey x) = ⟨1, BitVec.ofNat 4 x.val, 0, 0, 0, 0, 0, 0⟩) ∧
  (∀ r : FaultRecord,
    let g := Status.register (.fault r)
    g.await = 0 ∧ g.awaitReg = 0 ∧ g.faulted = 1 ∧ g.faultPc = r.pc ∧
    g.faultKind = (match r.kind with
      | .outOfBounds => 1 | .unknownOpcode => 2 | .stackOverflow => 3 | .stackUnderflow => 4) ∧
    (r.word = none → g.faultWordValid = 0 ∧ g.faultWord = 0) ∧
    (∀ w, r.word = some w → g.faultWordValid = 1 ∧ g.faultWord = w) ∧
    (r.info = none → g.faultInfo = 0) ∧ (∀ w, r.info = some w → g.faultInfo = w)) ∧
  ∀ q : Status, ¬((Status.register q).await = 1 ∧ (Status.register q).faulted = 1)

/-! ## Encoding -/

/-- A few words of R71's table and of the spec's examples decode to the instruction they stand for. -/
def Obligations.ExampleWordsDecode : Prop :=
  decodeWord 0x00E0 = some .cls ∧ decodeWord 0x00EE = some .ret ∧ decodeWord 0x01E0 = some (.sys 0x1E0) ∧
  decodeWord 0x1ABC = some (.jp 0xABC) ∧ decodeWord 0x3342 = some (.seByte 3 0x42) ∧
  decodeWord 0x8014 = some (.addReg 0 1) ∧ decodeWord 0x823E = some (.shl 2 3) ∧
  decodeWord 0xD123 = some (.drw 1 2 3) ∧ decodeWord 0xE19E = some (.skp 1) ∧ decodeWord 0xF30A = some (.ldVxK 3) ∧
  decodeWord 0xFA33 = some (.ldB 0xA) ∧ decodeWord 0x5001 = none ∧ decodeWord 0x8008 = none ∧ decodeWord 0xF0FF = none

/-- Decode and encode agree for every well-formed instruction, whatever bytes follow it (R63, R64, R66). -/
def Obligations.DecodeOfEncodeIsTheInstruction : Prop :=
  ∀ (i : Instr) (rest : List Byte), i.wf = true → decode (encodeBytes i ++ rest) = .instr i rest

/-- Every word that decodes has one meaning: it is the encoding of the well-formed instruction it decodes to. -/
def Obligations.EncodeOfDecodeIsTheWord : Prop :=
  ∀ (w : Word) (i : Instr), decodeWord w = some i → i.wf = true ∧ encode i = w

/-- R69: the illegal words are exactly those of its list, none of class 0x0, and a step that fetches one faults with
UnknownOpcode. That 5xyN and 9xyN with N not 0 are illegal is the spec's decision D10 (log entry 14); the state after the
fault and the record are its decisions D2 and D4 (R81, R132; log entries 8 and 9). -/
def Obligations.IllegalWordsAreExactlyTheListed : Prop :=
  (∀ w : Word,
    let u := w.toNat / 4096
    let n := w.toNat % 16
    let kk := w.toNat % 256
    decodeWord w = none ↔
      (u = 0x5 ∧ n ≠ 0) ∨ (u = 0x8 ∧ (0x8 ≤ n ∧ n ≤ 0xD ∨ n = 0xF)) ∨ (u = 0x9 ∧ n ≠ 0) ∨
      (u = 0xE ∧ kk ≠ 0x9E ∧ kk ≠ 0xA1) ∨
      (u = 0xF ∧ kk ≠ 0x07 ∧ kk ≠ 0x0A ∧ kk ≠ 0x15 ∧ kk ≠ 0x18 ∧ kk ≠ 0x1E ∧ kk ≠ 0x29 ∧ kk ≠ 0x33 ∧
        kk ≠ 0x55 ∧ kk ≠ 0x65)) ∧
  (∀ w : Word, w.toNat / 4096 = 0 → decodeWord w ≠ none) ∧
  ∀ (s : State) (w : Word), s.status = .run → s.pc.toNat % 2 = 0 → s.pc.toNat ≤ 0xFFE →
    s.mem.wordAt s.pc.toNat = w → decodeWord w = none →
    engineStep s = .next { s with status := .fault ⟨.unknownOpcode, s.pc, some w, some w⟩ }

/-! ## The step -/

/-- A step runs the decoded instruction: in status RUN, with the fetch check met and the two bytes at `PC` decoding to `i`
high byte first, `step` is `exec i` on the state that holds the step's inputs and `PC` advanced by 2 (R72, R75, R77). -/
def Obligations.StepRunsTheDecodedInstruction : Prop :=
  ∀ (s : State) (i : Instr), s.status = .run → s.pc.toNat % 2 = 0 → s.pc.toNat ≤ 0xFFE →
    decodeWord (s.mem.byteAt s.pc.toNat ++ s.mem.byteAt (s.pc.toNat + 1)) = some i →
    step s = exec i (s.receiveInput.setPc (s.pc + 2))

/-- What the host hands to a step (the model's choice, log entry 2): the next entry of its schedule, or, past the
schedule's end, nothing but a random byte, which is the free value of log entry 3 at the count of such draws. It holds
whatever byte that is. -/
def Obligations.StepReceivesTheHostsInputs : Prop :=
  ∀ s : State,
    (∀ h rest, s.inputs = h :: rest →
      s.receiveInput = { s with dt := s.receiveInput.dt, st := s.receiveInput.st, keys := h.keys, rnd := h.rnd, inputs := rest } ∧
      s.receiveInput.dt.toNat = s.dt.toNat - h.ticks ∧ s.receiveInput.st.toNat = s.st.toNat - h.ticks) ∧
    (s.inputs = [] → s.receiveInput = { s with rnd := Config.freeRandom s.draws, draws := s.draws + 1 })

/-- R74: fetch faults exactly when `PC` is odd or one of its two bytes lies past 0xFFF; else the step decodes the word and
executes the instruction, or faults with UnknownOpcode where there is none (R76). The kind and the bound are the spec's
decisions D5 and D6. The state after the fault and its record (R81, R132) are the spec's decisions D2 and D4 (log entries
8 and 9). -/
def Obligations.FetchChecksThePc : Prop :=
  ∀ s : State, s.status = .run →
    (s.pc.toNat % 2 = 1 ∨ s.pc.toNat + 1 > 0xFFF →
      engineStep s = .next { s with status := .fault ⟨.outOfBounds, s.pc, none, some s.pc⟩ }) ∧
    (s.pc.toNat % 2 = 0 ∧ s.pc.toNat + 1 ≤ 0xFFF →
      (∃ i, decodeWord (s.mem.wordAt s.pc.toNat) = some i ∧ engineStep s = exec i { s with pc := s.pc + 2 }) ∨
      (decodeWord (s.mem.wordAt s.pc.toNat) = none ∧ ∃ r, r.kind = .unknownOpcode ∧
        engineStep s = .next { s with status := .fault r }))

/-- R82: in FAULT a step changes nothing and reports the record again, and no operation but reset leaves FAULT. That FAULT
is sticky is the spec's decision D3. The state a step begins from holds the step's key snapshot already (the model's
choice, log entry 27). -/
def Obligations.FaultStatusIsSticky : Prop :=
  ∀ (s : State) (r : FaultRecord), s.status = .fault r →
    engineStep s = .next s ∧ s.report = some r ∧
    (∀ op t, operate op s = .ok t → t.status = .fault r ∨ ∃ m, op = .reset m) ∧
    ∀ m, (s.resetOp m).status = .run

/-- R79: in WAITKEY(x) a step without a key changes nothing; with one it writes a pressed key's number (the least, which
is R80's choice and log entry 6), advances `PC` and runs on. Ticks go on, and a reset ends the wait. Polling levels is the
spec's decision D11. -/
def Obligations.KeyWaitPollsTheKeys : Prop :=
  ∀ (s : State) (x : RegIdx), s.status = .waitKey x →
    ((∀ k < 16, s.keys.getLsbD k = false) → engineStep s = .next s) ∧
    (∀ k < 16, s.keys.getLsbD k = true → (∀ j < k, s.keys.getLsbD j = false) →
      engineStep s = .next { s with v := s.v.set x (BitVec.ofNat 8 k), pc := s.pc + 2, status := .run }) ∧
    tick s = { s with dt := (tick s).dt, st := (tick s).st } ∧ (tick s).dt.toNat = s.dt.toNat - 1 ∧
    (tick s).st.toNat = s.st.toNat - 1 ∧ ∀ m, (s.resetOp m).status = .run

/-- Every step of every state completes with a next state: no fault and no refusal ends the machine (R77, R81, R135). -/
def Obligations.EveryStepAnswersANextState : Prop := ∀ s : State, ∃ t, step s = .next t

/-- R133, with R131's table: from RUN a step ends in FAULT with exactly the record of the first check that fails, and
without one when none does; a step in WAITKEY raises nothing. The record's fields are the spec's decision D4. -/
def Obligations.StepFaultsExactlyWhenACheckFails : Prop :=
  (∀ s t : State, s.status = .run → engineStep s = .next t → ∀ r, t.status = .fault r ↔ s.faultOf = some r) ∧
  ∀ (s t : State) (x : RegIdx), s.status = .waitKey x → engineStep s = .next t → ∀ r, t.status ≠ .fault r

/-- R81: a fault raised anywhere in a step leaves every piece of state as it was when the step began, except the status,
and the record holds the kind, the address, the word when fetch read it, and the diagnostic value. That all writes are
discarded is the spec's decision D2, and the record its decision D4. The state a step begins from holds the step's key
snapshot already (the model's choice, log entry 27). -/
def Obligations.FaultsArePrecise : Prop :=
  ∀ (s t : State) (r : FaultRecord), s.status = .run → engineStep s = .next t → t.status = .fault r →
    t = { s with status := .fault r } ∧ r.pc = s.pc ∧ s.faultOf = some r ∧
    (r.word = none ∨ r.word = some (s.mem.wordAt s.pc.toNat)) ∧
    (r.word = none ↔ s.pc.toNat % 2 = 1 ∨ s.pc.toNat + 1 > 0xFFF)

/-- Where each instruction traps: it takes the fault of R131's table, with its own word in the record (R78, R132). The
record is the spec's decision D4. -/
def Obligations.InstructionsTakeTheListedFaults : Prop :=
  ∀ (i : Instr) (s : State) (k : Fault) (info : Option Word), raises i s = some (k, info) →
    exec i s = .next (faulted s i k info)

/-- The invariant of every step, from every state that meets it: memory stays in its canonical form, `I` at most 0xFFF
(R31), `PC` at most 0x10FE (R34), stack entries at most 0x1000, and the status agrees with `PC`. The bounds are inferences
that the spec marks as derived (R31, R34); the memory's form is the model's. -/
def Obligations.StepKeepsTheInvariant : Prop := ∀ s t : State, s.Inv → step s = .next t → t.Inv

/-- The invariant holds at reset. -/
def Obligations.ResetMeetsTheInvariant : Prop := State.reset.Inv

/-- R31 and R34 as rules of whole sessions: after any session that begins with a reset, whatever the host then loads,
ticks, steps and resets, the invariant holds. Which operations a session admits is the spec's decisions D25 and D30. -/
def Obligations.SessionsKeepTheInvariant : Prop :=
  ∀ (s t : State) (ops : List HostOp), ops ≠ [] → (∀ m, HostOp.reset m ∈ ops → m.wf = true) →
    session .constructed s ops = some t → t.Inv

/-- R156 (the definition of an ended run is the spec's decision D34): an ended run stays ended under any steps and ticks;
the steps change nothing (but the inputs they were handed), each tick lowers the timers, and nothing else changes. A run
in status FAULT stops for good too, and a run in WAITKEY is not ended: a pressed key continues it. An odd or too high `PC`
is no ended run (the model's choice, log entry 26). -/
def Obligations.EndedRunStaysEnded : Prop :=
  (∀ s : State, s.ended = true → engineStep s = .next s ∧
    ∀ ops : List HostOp, (∀ op ∈ ops, op = .tick ∨ ∃ k r, op = .step k r) →
      ∃ t, session .running s ops = some t ∧ t.ended = true ∧
        t = { s with dt := t.dt, st := t.st, keys := t.keys, rnd := t.rnd } ∧
        t.dt.toNat = s.dt.toNat - ops.count .tick ∧ t.st.toNat = s.st.toNat - ops.count .tick) ∧
  (∀ (s : State) (x : RegIdx), s.status = .waitKey x → s.ended = false ∧
    (s.keys ≠ 0 → ∃ t, engineStep s = .next t ∧ t.status = .run)) ∧
  ∀ (s : State) (r : FaultRecord), s.status = .fault r → s.ended = false ∧ engineStep s = .next s

/-- R129: a tick lowers each nonzero timer by 1, in every status, and changes nothing else. That it does so in FAULT too
is the spec's decision D3. -/
def Obligations.TickLowersNonzeroTimers : Prop :=
  ∀ s : State, tick s = { s with
    dt := if s.dt.toNat > 0 then s.dt - 1 else s.dt
    st := if s.st.toNat > 0 then s.st - 1 else s.st }

/-- Any number of ticks: each timer falls by that number and is clamped at 0 (R36). -/
def Obligations.TimersClampAtZero : Prop :=
  ∀ (n : Nat) (s : State), (ticks n s).dt.toNat = s.dt.toNat - n ∧ (ticks n s).st.toNat = s.st.toNat - n

/-! ## Memory -/

/-- Two memories in canonical form that read alike everywhere are equal data (the model's form of R39's array). -/
def Obligations.CanonicalMemoriesReadAlikeAreEqual : Prop :=
  ∀ m m' : Memory, m.wf = true → m'.wf = true → (∀ a, m.byteAt a = m'.byteAt a) → m = m'

/-- A store is seen by the next instruction fetch (R61, R50): after LD [I],Vx over the bytes at `PC`, the step runs the word
made of the stored registers, high byte first. -/
def Obligations.StoredBytesAreFetchedNext : Prop :=
  ∀ (x : RegIdx) (s t : State) (k : Nat) (hk : k + 1 ≤ x.val) (i : Instr),
    s.status = .run → s.iReg.toNat + x.val ≤ 0xFFF → exec (.storeRegs x) s = .next t →
    t.pc.toNat = s.iReg.toNat + k → t.pc.toNat % 2 = 0 →
    decodeWord (s.reg ⟨k, by omega⟩ ++ s.reg ⟨k + 1, by omega⟩) = some i →
    engineStep t = exec i { t with pc := t.pc + 2 }

/-! ## Control flow -/

/-- R88: SYS is a no-op for every `nnn` but the two that are CLS and RET. -/
def Obligations.SysIsANoOp : Prop :=
  (∀ nnn : Addr, nnn ≠ 0x0E0 → nnn ≠ 0x0EE → decodeWord (wordN 0x0 nnn) = some (.sys nnn)) ∧
  ∀ (nnn : Addr) (s : State), exec (.sys nnn) s = .next s

/-- R89: RET pops into `PC`, or faults on an empty stack. The state after the fault and its record (R81, R132) are the
spec's decisions D2 and D4 (log entries 8 and 9). -/
def Obligations.RetPopsTheReturnAddress : Prop :=
  decodeWord 0x00EE = some .ret ∧
  ∀ s : State,
    (0 < s.sp.val → ∃ t, exec .ret s = .next t ∧ t = { s with pc := t.pc, sp := t.sp } ∧
      t.pc = s.entry (s.sp.val - 1) ∧ t.sp.val + 1 = s.sp.val) ∧
    (s.sp.val = 0 → exec .ret s = .next (faulted s .ret .stackUnderflow none))

/-- R90: JP. -/
def Obligations.JpSetsThePc : Prop :=
  (∀ nnn : Addr, decodeWord (wordN 0x1 nnn) = some (.jp nnn)) ∧
  ∀ (nnn : Addr) (s : State), exec (.jp nnn) s = .next { s with pc := BitVec.ofNat 16 nnn.toNat }

/-- R91: CALL pushes the advanced `PC` and jumps, or faults on a full stack; the entries below stay. The state after the
fault and its record (R81, R132) are the spec's decisions D2 and D4 (log entries 8 and 9). -/
def Obligations.CallPushesTheReturnAddress : Prop :=
  (∀ nnn : Addr, decodeWord (wordN 0x2 nnn) = some (.call nnn)) ∧
  ∀ (nnn : Addr) (s : State),
    (s.sp.val < 16 → ∃ t, exec (.call nnn) s = .next t ∧ t = { s with pc := t.pc, sp := t.sp, stack := t.stack } ∧
      t.pc = BitVec.ofNat 16 nnn.toNat ∧ t.sp.val = s.sp.val + 1 ∧
      ∀ j, t.entry j = if j = s.sp.val then s.pc else s.entry j) ∧
    (s.sp.val = 16 → exec (.call nnn) s = .next (faulted s (.call nnn) .stackOverflow none))

/-- The round trip of the source's test L1-5: after CALL and RET, `PC` is the address after the CALL and the depth is the old
one. -/
def Obligations.CallThenRetReturns : Prop :=
  ∀ (nnn : Addr) (s t : State) (a : Word), s.sp.val < 16 → exec (.call nnn) s = .next t →
    ∃ u, exec .ret (t.setPc a) = .next u ∧ u.pc = s.pc ∧ u.sp = s.sp

/-- R92 to R95: the four skips add 2 to the advanced `PC` when their condition holds, and change nothing else. -/
def Obligations.SkipsCompareRegisters : Prop :=
  (∀ x kk, decodeWord (wordK 0x3 x kk) = some (.seByte x kk)) ∧
  (∀ x kk, decodeWord (wordK 0x4 x kk) = some (.sneByte x kk)) ∧
  (∀ x y, decodeWord (wordXY 0x5 x y 0) = some (.seReg x y)) ∧
  (∀ x y, decodeWord (wordXY 0x9 x y 0) = some (.sneReg x y)) ∧
  ∀ (x y : RegIdx) (kk : Byte) (s : State),
    exec (.seByte x kk) s = .next { s with pc := if s.reg x = kk then s.pc + 2 else s.pc } ∧
    exec (.sneByte x kk) s = .next { s with pc := if s.reg x = kk then s.pc else s.pc + 2 } ∧
    exec (.seReg x y) s = .next { s with pc := if s.reg x = s.reg y then s.pc + 2 else s.pc } ∧
    exec (.sneReg x y) s = .next { s with pc := if s.reg x = s.reg y then s.pc else s.pc + 2 }

/-- R96: JP V0 sets `PC` to the exact sum, not reduced modulo 4096. That the sum is not reduced is the spec's decision D7. -/
def Obligations.JpV0AddsV0 : Prop :=
  (∀ nnn : Addr, decodeWord (wordN 0xB nnn) = some (.jpV0 nnn)) ∧
  ∀ (nnn : Addr) (s : State), ∃ t, exec (.jpV0 nnn) s = .next t ∧ t = { s with pc := t.pc } ∧
    t.pc.toNat = nnn.toNat + (s.reg 0).toNat

/-! ## Registers and ALU -/

/-- R100, R101: the loads and the add of an immediate, without a flag. -/
def Obligations.ImmediatesLoadAndAdd : Prop :=
  (∀ x kk, decodeWord (wordK 0x6 x kk) = some (.ldByte x kk)) ∧
  (∀ x kk, decodeWord (wordK 0x7 x kk) = some (.addByte x kk)) ∧
  ∀ (x : RegIdx) (kk : Byte) (s : State),
    exec (.ldByte x kk) s = .next { s with v := s.v.set x kk } ∧
    exec (.addByte x kk) s = .next { s with v := s.v.set x (BitVec.ofNat 8 (((s.reg x).toNat + kk.toNat) % 256)) }

/-- R102 to R105: the move and the three bitwise instructions, without a flag. -/
def Obligations.MoveAndBitwiseWriteVx : Prop :=
  (∀ x y, decodeWord (wordXY 0x8 x y 0x0) = some (.ldReg x y)) ∧
  (∀ x y, decodeWord (wordXY 0x8 x y 0x1) = some (.orReg x y)) ∧
  (∀ x y, decodeWord (wordXY 0x8 x y 0x2) = some (.andReg x y)) ∧
  (∀ x y, decodeWord (wordXY 0x8 x y 0x3) = some (.xorReg x y)) ∧
  ∀ (x y : RegIdx) (s : State),
    exec (.ldReg x y) s = .next { s with v := s.v.set x (s.reg y) } ∧
    exec (.orReg x y) s = .next { s with v := s.v.set x (s.reg x ||| s.reg y) } ∧
    exec (.andReg x y) s = .next { s with v := s.v.set x (s.reg x &&& s.reg y) } ∧
    exec (.xorReg x y) s = .next { s with v := s.v.set x (s.reg x ^^^ s.reg y) }

/-- R106: ADD writes the sum modulo 256 into `V[x]` and the carry into VF, the carry lost when `x` is F; the operands are
the old values. That the result overwrites the carry when `x` is F is the order of the two writes (R98), the spec's
decision D9 (log entry 10). -/
def Obligations.AddSetsTheCarry : Prop :=
  (∀ x y, decodeWord (wordXY 0x8 x y 0x4) = some (.addReg x y)) ∧
  ∀ (x y : RegIdx) (s : State), ∃ t, exec (.addReg x y) s = .next t ∧ t = { s with v := t.v } ∧
    ∀ r, (t.reg r).toNat =
      if r = x then ((s.reg x).toNat + (s.reg y).toNat) % 256
      else if r = 15 then (if (s.reg x).toNat + (s.reg y).toNat > 255 then 1 else 0)
      else (s.reg r).toNat

/-- R107: SUB writes its flag into VF first, 1 when no borrow occurs, and then the difference of the registers as that
write left them into `V[x]`. The order of the two writes is the spec's decision D9. -/
def Obligations.SubFlagsNoBorrow : Prop :=
  (∀ x y, decodeWord (wordXY 0x8 x y 0x5) = some (.subReg x y)) ∧
  ∀ (x y : RegIdx) (s : State), ∃ t, exec (.subReg x y) s = .next t ∧ t = { s with v := t.v } ∧
    let f := if (s.reg x).toNat ≥ (s.reg y).toNat then 1 else 0
    let a := if x = 15 then f else (s.reg x).toNat
    let b := if y = 15 then f else (s.reg y).toNat
    ∀ r, (t.reg r).toNat = if r = x then (256 + a - b) % 256 else if r = 15 then f else (s.reg r).toNat

/-- R109: SUBN, the same with the operands exchanged. The order of the two writes is the spec's decision D9. -/
def Obligations.SubnFlagsNoBorrow : Prop :=
  (∀ x y, decodeWord (wordXY 0x8 x y 0x7) = some (.subn x y)) ∧
  ∀ (x y : RegIdx) (s : State), ∃ t, exec (.subn x y) s = .next t ∧ t = { s with v := t.v } ∧
    let f := if (s.reg y).toNat ≥ (s.reg x).toNat then 1 else 0
    let a := if x = 15 then f else (s.reg x).toNat
    let b := if y = 15 then f else (s.reg y).toNat
    ∀ r, (t.reg r).toNat = if r = x then (256 + b - a) % 256 else if r = 15 then f else (s.reg r).toNat

/-- R108, R110 (and R99: `y` plays no part): the shifts by one write the bit shifted out into VF first, and then the
shifted register into `V[x]`. The order of the two writes is the spec's decision D9. -/
def Obligations.ShiftsByOneFlagTheBitOut : Prop :=
  (∀ x y, decodeWord (wordXY 0x8 x y 0x6) = some (.shr x y)) ∧
  (∀ x y, decodeWord (wordXY 0x8 x y 0xE) = some (.shl x y)) ∧
  ∀ (x y : RegIdx) (s : State),
    (∃ t, exec (.shr x y) s = .next t ∧ t = { s with v := t.v } ∧
      let f := (s.reg x).toNat % 2
      let a := if x = 15 then f else (s.reg x).toNat
      ∀ r, (t.reg r).toNat = if r = x then a / 2 else if r = 15 then f else (s.reg r).toNat) ∧
    (∃ t, exec (.shl x y) s = .next t ∧ t = { s with v := t.v } ∧
      let f := (s.reg x).toNat / 128
      let a := if x = 15 then f else (s.reg x).toNat
      ∀ r, (t.reg r).toNat = if r = x then a * 2 % 256 else if r = 15 then f else (s.reg r).toNat)

/-- R111: RND writes the step's random byte, whatever it is, under the mask. -/
def Obligations.RndMasksTheRandomByte : Prop :=
  (∀ x kk, decodeWord (wordK 0xC x kk) = some (.rnd x kk)) ∧
  ∀ (x : RegIdx) (kk : Byte) (s : State), exec (.rnd x kk) s = .next { s with v := s.v.set x (s.rnd &&& kk) } ∧
    ∀ j, kk.getLsbD j = false → (s.rnd &&& kk).getLsbD j = false

/-! ## Index and memory -/

/-- R112, R113: LD I, and ADD I modulo 4096 without a flag. -/
def Obligations.IndexLoadsAndAdds : Prop :=
  (∀ nnn : Addr, decodeWord (wordN 0xA nnn) = some (.ldI nnn)) ∧
  (∀ x, decodeWord (wordK 0xF x 0x1E) = some (.addI x)) ∧
  (∀ (nnn : Addr) (s : State), exec (.ldI nnn) s = .next { s with iReg := BitVec.ofNat 16 nnn.toNat }) ∧
  ∀ (x : RegIdx) (s : State), ∃ t, exec (.addI x) s = .next t ∧ t = { s with iReg := t.iReg } ∧
    t.iReg.toNat = (s.iReg.toNat + (s.reg x).toNat) % 4096

/-- R114: LD F points `I` at the glyph of a hex digit, and faults on any other value. The base and the fault are the
spec's decisions D13 and D17. The state after the fault and its record (R81, R132) are the spec's decisions D2 and D4 (log
entries 8 and 9). -/
def Obligations.GlyphIndexOrFault : Prop :=
  (∀ x, decodeWord (wordK 0xF x 0x29) = some (.ldF x)) ∧
  ∀ (x : RegIdx) (s : State),
    ((s.reg x).toNat ≤ 0xF → ∃ t, exec (.ldF x) s = .next t ∧ t = { s with iReg := t.iReg } ∧
      t.iReg.toNat = fontBase + 5 * (s.reg x).toNat) ∧
    ((s.reg x).toNat > 0xF →
      exec (.ldF x) s = .next (faulted s (.ldF x) .outOfBounds (some (BitVec.ofNat 16 (s.reg x).toNat))))

/-- R115: LD B stores the three decimal digits at `I`, `I + 1`, `I + 2` and nothing else, or faults with no byte written.
That the addresses are checked and not wrapped is the spec's decision D8. The state after the fault and its record (R81,
R132) are the spec's decisions D2 and D4 (log entries 8 and 9). -/
def Obligations.BcdStoresThreeDigits : Prop :=
  (∀ x, decodeWord (wordK 0xF x 0x33) = some (.ldB x)) ∧
  ∀ (x : RegIdx) (s : State),
    (s.iReg.toNat + 2 ≤ 0xFFF → ∃ t, exec (.ldB x) s = .next t ∧ t = { s with mem := t.mem } ∧
      ∀ a, (t.mem.byteAt a).toNat =
        if a = s.iReg.toNat then (s.reg x).toNat / 100
        else if a = s.iReg.toNat + 1 then (s.reg x).toNat / 10 % 10
        else if a = s.iReg.toNat + 2 then (s.reg x).toNat % 10
        else (s.mem.byteAt a).toNat) ∧
    (s.iReg.toNat + 2 > 0xFFF → exec (.ldB x) s = .next (faulted s (.ldB x) .outOfBounds (some 0x1000)))

/-- R116: LD [I],Vx stores V0 to Vx from `I` on and nothing else, `I` unchanged, or faults with no byte written. The bound
and the unchanged `I` are the spec's decisions D8 and D18. The state after the fault and its record (R81, R132) are the
spec's decisions D2 and D4 (log entries 8 and 9). -/
def Obligations.StoreRegsCopiesTheBlock : Prop :=
  (∀ x, decodeWord (wordK 0xF x 0x55) = some (.storeRegs x)) ∧
  ∀ (x : RegIdx) (s : State),
    (s.iReg.toNat + x.val ≤ 0xFFF → ∃ t, exec (.storeRegs x) s = .next t ∧ t = { s with mem := t.mem } ∧
      (∀ r : RegIdx, r ≤ x → t.mem.byteAt (s.iReg.toNat + r.val) = s.reg r) ∧
      ∀ a, a < s.iReg.toNat ∨ s.iReg.toNat + x.val < a → t.mem.byteAt a = s.mem.byteAt a) ∧
    (s.iReg.toNat + x.val > 0xFFF → exec (.storeRegs x) s = .next (faulted s (.storeRegs x) .outOfBounds (some 0x1000)))

/-- R117: LD Vx,[I] loads V0 to Vx from `I` on and no other register, `I` and memory unchanged, or faults with no register
written. The bound and the unchanged `I` are the spec's decisions D8 and D18. The state after the fault and its record
(R81, R132) are the spec's decisions D2 and D4 (log entries 8 and 9). -/
def Obligations.LoadRegsCopiesTheBlock : Prop :=
  (∀ x, decodeWord (wordK 0xF x 0x65) = some (.loadRegs x)) ∧
  ∀ (x : RegIdx) (s : State),
    (s.iReg.toNat + x.val ≤ 0xFFF → ∃ t, exec (.loadRegs x) s = .next t ∧ t = { s with v := t.v } ∧
      ∀ r : RegIdx, t.reg r = if r ≤ x then s.mem.byteAt (s.iReg.toNat + r.val) else s.reg r) ∧
    (s.iReg.toNat + x.val > 0xFFF → exec (.loadRegs x) s = .next (faulted s (.loadRegs x) .outOfBounds (some 0x1000)))

/-! ## Display -/

/-- R121: CLS turns every pixel off and changes nothing else. -/
def Obligations.ClsClearsTheDisplay : Prop :=
  decodeWord 0x00E0 = some .cls ∧
  ∀ s : State, ∃ t, exec .cls s = .next t ∧ t = { s with disp := t.disp } ∧ ∀ py px, t.disp.pixel py px = false

/-- R122 with R120's sprite format, as one equation for every pixel: DRW flips exactly the pixels the sprite covers
(columns wrapped, rows clipped), VF becomes 1 exactly when a covered pixel was on, and nothing else changes; it faults
when the sprite's bytes pass 0xFFF. The bit and row order, n = 0 and the bound are the spec's decisions D15 and D16. The
state after the fault and its record (R81, R132) are the spec's decisions D2 and D4 (log entries 8 and 9). -/
def Obligations.DrwXorsTheSprite : Prop :=
  (∀ (x y : RegIdx) (n : Nibble), decodeWord (wordXY 0xD x y n.toNat) = some (.drw x y n)) ∧
  ∀ (x y : RegIdx) (n : Nibble) (s : State),
    let sprite := (List.range n.toNat).map fun r => s.mem.byteAt (s.iReg.toNat + r)
    let covers := spriteCovers sprite ((s.reg x).toNat % 64) ((s.reg y).toNat % 32)
    (n.toNat = 0 ∨ s.iReg.toNat + n.toNat - 1 ≤ 0xFFF →
      ∃ t, exec (.drw x y n) s = .next t ∧ t = { s with v := t.v, disp := t.disp } ∧
        (∀ py px, t.disp.pixel py px = (s.disp.pixel py px ^^ covers py px)) ∧
        (∀ r, r ≠ 15 → t.reg r = s.reg r) ∧
        ((∃ py px, covers py px = true ∧ s.disp.pixel py px = true) → t.reg 15 = 1) ∧
        (¬(∃ py px, covers py px = true ∧ s.disp.pixel py px = true) → t.reg 15 = 0)) ∧
    (n.toNat > 0 ∧ s.iReg.toNat + n.toNat - 1 > 0xFFF →
      exec (.drw x y n) s = .next (faulted s (.drw x y n) .outOfBounds (some 0x1000)))

/-- R122's corner case: drawing the same sprite twice at the same place restores the buffer, and the second draw sets VF to 1
exactly when some pixel the sprite flips was off before the first. -/
def Obligations.DrawingTwiceRestoresTheDisplay : Prop :=
  ∀ (x y : RegIdx) (n : Nibble) (s t : State), raises (.drw x y n) s = none → exec (.drw x y n) s = .next t →
    (t.reg x).toNat % 64 = (s.reg x).toNat % 64 → (t.reg y).toNat % 32 = (s.reg y).toNat % 32 →
    ∃ u, exec (.drw x y n) t = .next u ∧ u.disp = s.disp ∧
      (u.reg 15 = 1 ↔ ∃ py px, s.disp.pixel py px = false ∧ t.disp.pixel py px = true)

/-! ## Keys and timers -/

/-- R123, R124: SKP and SKNP skip on the snapshot of the step, and fault when `V[x]` names no key. The fault is the spec's
decision D19. The state after the fault and its record (R81, R132) are the spec's decisions D2 and D4 (log entries 8 and
9). -/
def Obligations.KeySkipsReadTheSnapshot : Prop :=
  (∀ x, decodeWord (wordK 0xE x 0x9E) = some (.skp x)) ∧ (∀ x, decodeWord (wordK 0xE x 0xA1) = some (.sknp x)) ∧
  ∀ (x : RegIdx) (s : State),
    ((s.reg x).toNat ≤ 0xF →
      exec (.skp x) s = .next { s with pc := if s.keys.getLsbD (s.reg x).toNat then s.pc + 2 else s.pc } ∧
      exec (.sknp x) s = .next { s with pc := if s.keys.getLsbD (s.reg x).toNat then s.pc else s.pc + 2 }) ∧
    ((s.reg x).toNat > 0xF →
      exec (.skp x) s = .next (faulted s (.skp x) .outOfBounds (some (BitVec.ofNat 16 (s.reg x).toNat))) ∧
      exec (.sknp x) s = .next (faulted s (.sknp x) .outOfBounds (some (BitVec.ofNat 16 (s.reg x).toNat))))

/-- R125, R127, R128: the timer reads and writes. -/
def Obligations.TimersReadAndWrite : Prop :=
  (∀ x, decodeWord (wordK 0xF x 0x07) = some (.ldVxDt x)) ∧ (∀ x, decodeWord (wordK 0xF x 0x15) = some (.ldDtVx x)) ∧
  (∀ x, decodeWord (wordK 0xF x 0x18) = some (.ldStVx x)) ∧
  ∀ (x : RegIdx) (s : State),
    exec (.ldVxDt x) s = .next { s with v := s.v.set x s.dt } ∧
    exec (.ldDtVx x) s = .next { s with dt := s.reg x } ∧
    exec (.ldStVx x) s = .next { s with st := s.reg x }

/-- R126: LD Vx,K with a key pressed writes a pressed key's number (the least: R80's choice, log entry 6) and runs on;
with none it goes back to its own address and waits. Completing at once on a key already down is the spec's decision D11. -/
def Obligations.KeyLoadCompletesOrWaits : Prop :=
  (∀ x, decodeWord (wordK 0xF x 0x0A) = some (.ldVxK x)) ∧
  ∀ (x : RegIdx) (s : State),
    (∀ k < 16, s.keys.getLsbD k = true → (∀ j < k, s.keys.getLsbD j = false) →
      exec (.ldVxK x) s = .next { s with v := s.v.set x (BitVec.ofNat 8 k) }) ∧
    ((∀ k < 16, s.keys.getLsbD k = false) →
      exec (.ldVxK x) s = .next { s with pc := s.pc - 2, status := .waitKey x })

/-! ## Frames: what each instruction leaves unchanged -/

/-- R28's table: an instruction writes the general registers it names and no other. -/
def Obligations.RegistersChangeOnlyWhereListed : Prop :=
  ∀ (i : Instr) (s t : State), exec i s = .next t → ∀ r, r ∉ destRegs i → t.reg r = s.reg r

/-- R32's table: `PC` after every instruction that raises no fault. -/
def Obligations.PcAfterEachInstruction : Prop :=
  ∀ (i : Instr) (s t : State), raises i s = none → exec i s = .next t → t.pc = pcAfter i s

/-- R35: the stack and `SP` move only by CALL and RET, and an entry below `SP` never changes. -/
def Obligations.StackMovesOnlyByCallAndRet : Prop :=
  ∀ (i : Instr) (s t : State), exec i s = .next t →
    (writesStack i = false → t.stack = s.stack ∧ t.sp = s.sp) ∧
    ∀ j < s.sp.val, t.entry j = s.entry j

/-- R36: no instruction changes `DT` but LD DT, nor `ST` but LD ST. -/
def Obligations.TimersChangeOnlyByTheirLoads : Prop :=
  ∀ (i : Instr) (s t : State), exec i s = .next t →
    ((∀ x, i ≠ .ldDtVx x) → t.dt = s.dt) ∧ ((∀ x, i ≠ .ldStVx x) → t.st = s.st)

/-- R30, R37: `I` is written only by LD I, ADD I and LD F, and the pixel buffer only by CLS and DRW. -/
def Obligations.IndexAndDisplayChangeOnlyWhereListed : Prop :=
  ∀ (i : Instr) (s t : State), exec i s = .next t →
    (writesI i = false → t.iReg = s.iReg) ∧ (writesDisplay i = false → t.disp = s.disp)

/-- R52's table: every byte of memory outside those an instruction stores to, from the address in `I` on, reads as before; an
instruction that stores none leaves every byte. -/
def Obligations.MemoryChangesOnlyWhereStored : Prop :=
  ∀ (i : Instr) (s t : State), exec i s = .next t →
    ∀ a, a < s.indexAddress ∨ s.indexAddress + storeCount i ≤ a → t.mem.byteAt a = s.mem.byteAt a

/-- The status changes only by LD Vx,K with no key pressed and by a fault of R131's table (R43, R131). -/
def Obligations.StatusChangesOnlyByWaitsAndFaults : Prop :=
  ∀ (i : Instr) (s t : State), exec i s = .next t →
    (raises i s = none ∧ t.status = s.status) ∨
    (∃ x, i = .ldVxK x ∧ s.keys = 0 ∧ t.status = .waitKey x) ∨
    ∃ k info, raises i s = some (k, info) ∧ t.status = .fault ⟨k, s.pc - 2, some (encode i), info⟩

/-- R38: no step of the engine changes the key states, nor the host's other inputs (the model's own fields, log entry 2).
So KEY keeps the step's snapshot after a fault too (the model's choice, log entry 27). -/
def Obligations.EngineNeverChangesTheInputs : Prop :=
  ∀ s t : State, engineStep s = .next t →
    t.keys = s.keys ∧ t.rnd = s.rnd ∧ t.inputs = s.inputs ∧ t.draws = s.draws

/-- The keys are read by SKP, SKNP and LD Vx,K alone, the random byte by RND alone, and `ST` by no instruction (R36, R38,
R111): changing the one leaves all the rest of what any other instruction does. -/
def Obligations.InputsAreReadOnlyWhereListed : Prop :=
  ∀ (i : Instr) (s t : State), exec i s = .next t →
    (∀ k, (∀ x, i ≠ .skp x ∧ i ≠ .sknp x ∧ i ≠ .ldVxK x) → exec i { s with keys := k } = .next { t with keys := k }) ∧
    (∀ b, (∀ x kk, i ≠ .rnd x kk) → exec i { s with rnd := b } = .next { t with rnd := b }) ∧
    (∀ b, (∀ x, i ≠ .ldStVx x) → exec i { s with st := b } = .next { t with st := b })
end

