-- ==== Sys2Proof/Laws/Encoding.lean ====
section
/-! SUPPORT. The fields of the encoded formats (30_encoding.md R63, R64), read back one by one. -/

namespace Sys2Proof

@[simp] theorem RegIdx.ofNibble_toNibble (x : RegIdx) : RegIdx.ofNibble x.toNibble = x := rfl

@[simp] theorem RegIdx.toNibble_ofNibble (b : Nibble) : (RegIdx.ofNibble b).toNibble = b := rfl

@[simp] theorem RegIdx.toNat_toNibble (x : RegIdx) : x.toNibble.toNat = x.val := rfl

/-- The high part of a concatenation. -/
theorem extract_high {m n : Nat} (a : BitVec m) (b : BitVec n) : (a ++ b).extractLsb' n m = a := by
  ext i hi
  simp only [BitVec.getElem_extractLsb', BitVec.getLsbD_append]
  rw [if_neg (by omega)]
  simp [BitVec.getLsbD_eq_getElem, hi]

/-- A field inside the low part of a concatenation. -/
theorem extract_low {m n : Nat} (a : BitVec m) (b : BitVec n) {lo k : Nat} (h : lo + k ≤ n) :
    (a ++ b).extractLsb' lo k = b.extractLsb' lo k := by
  ext i hi
  simp only [BitVec.getElem_extractLsb', BitVec.getLsbD_append]
  rw [if_pos (by omega)]

/-- The whole of a bit vector as a field. -/
theorem extract_whole {n : Nat} (b : BitVec n) : b.extractLsb' 0 n = b := by
  ext i hi
  simp

@[simp] theorem fieldU_encNnn (u : Nibble) (nnn : Addr) : fieldU (encNnn u nnn) = u := extract_high u nnn

@[simp] theorem fieldNNN_encNnn (u : Nibble) (nnn : Addr) : fieldNNN (encNnn u nnn) = nnn :=
  (extract_low u nnn (by omega)).trans (extract_whole nnn)

@[simp] theorem fieldU_encXkk (u : Nibble) (x : RegIdx) (kk : Byte) : fieldU (encXkk u x kk) = u := extract_high u _

@[simp] theorem fieldX_encXkk (u : Nibble) (x : RegIdx) (kk : Byte) : fieldX (encXkk u x kk) = x :=
  congrArg RegIdx.ofNibble ((extract_low u _ (by omega)).trans (extract_high x.toNibble kk))

@[simp] theorem fieldKK_encXkk (u : Nibble) (x : RegIdx) (kk : Byte) : fieldKK (encXkk u x kk) = kk :=
  (extract_low u _ (by omega)).trans ((extract_low x.toNibble kk (by omega)).trans (extract_whole kk))

@[simp] theorem fieldU_encXyn (u : Nibble) (x y : RegIdx) (n : Nibble) : fieldU (encXyn u x y n) = u := extract_high u _

@[simp] theorem fieldX_encXyn (u : Nibble) (x y : RegIdx) (n : Nibble) : fieldX (encXyn u x y n) = x :=
  congrArg RegIdx.ofNibble ((extract_low u _ (by omega)).trans (extract_high x.toNibble _))

@[simp] theorem fieldY_encXyn (u : Nibble) (x y : RegIdx) (n : Nibble) : fieldY (encXyn u x y n) = y :=
  congrArg RegIdx.ofNibble ((extract_low u _ (by omega)).trans
    ((extract_low x.toNibble _ (by omega)).trans (extract_high y.toNibble n)))

@[simp] theorem fieldN_encXyn (u : Nibble) (x y : RegIdx) (n : Nibble) : fieldN (encXyn u x y n) = n :=
  (extract_low u _ (by omega)).trans
    ((extract_low x.toNibble _ (by omega)).trans ((extract_low y.toNibble n (by omega)).trans (extract_whole n)))

/-- A bit vector from its high part and its low part. -/
theorem append_extract {m n : Nat} (w : BitVec (m + n)) : w.extractLsb' n m ++ w.extractLsb' 0 n = w := by
  ext i hi
  simp only [BitVec.getElem_append, BitVec.getElem_extractLsb']
  split
  · simp [BitVec.getLsbD_eq_getElem, hi]
  · rw [show n + (i - n) = i by omega]; simp [BitVec.getLsbD_eq_getElem, hi]

/-- A word from its high byte and its low byte (R50). -/
theorem wordOfBytes_split (w : Word) : wordOfBytes (highByte w) (lowByte w) = w := append_extract (m := 8) (n := 8) w

/-- The decoder on the two bytes of a word is the decoder on the word. -/
theorem decode_bytes (w : Word) (rest : List Byte) :
    decode (highByte w :: lowByte w :: rest) =
      match decodeWord w with
      | some i => .instr i rest
      | none => .unknownOpcode w := by
  simp only [decode, wordOfBytes_split]
  all_goals (cases decodeWord w <;> rfl)

end Sys2Proof
end

