-- ==== Sys2Proof/Laws/Memory.lean ====
section
/-! SUPPORT. The laws of memory: a read after a write, writes elsewhere, the canonical form kept by every operation, and
one lemma for each group access. -/

namespace Sys2Proof.Machine

/-! ### One byte -/

theorem Memory.byteAt_remove (m : Memory) (a c : Nat) :
    (m.remove a).byteAt c = if c = a then absentByte a else m.byteAt c := by
  induction m with
  | nil => simp only [remove, byteAt]; split <;> simp_all
  | cons e m ih =>
    obtain ⟨k, b⟩ := e
    by_cases h : a = k
    · subst h
      simp only [remove, if_true, ih, byteAt]
      split <;> simp_all
    · simp only [remove, if_neg h, byteAt, ih]
      by_cases hc : c = k
      · subst hc; simp [Ne.symm h]
      · simp [hc]

theorem Memory.byteAt_insert (m : Memory) (a c : Nat) (b : Byte) :
    (m.insert a b).byteAt c = if c = a then b else m.byteAt c := by
  induction m with
  | nil => rfl
  | cons e m ih =>
    obtain ⟨k, d⟩ := e
    simp only [insert]
    split
    · rfl
    · split
      · next h => subst h; simp only [byteAt]; split <;> simp_all
      · next h1 h2 =>
        simp only [byteAt, ih]
        by_cases hc : c = k
        · subst hc; simp [Ne.symm h2]
        · simp [hc]

/-- A read after a write: the value written at its address, the old value everywhere else (R48, R58). -/
@[simp] theorem Memory.byteAt_put (m : Memory) (a c : Nat) (b : Byte) :
    (m.put a b).byteAt c = if c = a then b else m.byteAt c := by
  unfold put
  split
  · next h => rw [byteAt_remove, h]
  · exact byteAt_insert m a c b

/-! ### The canonical form -/

theorem Memory.wf_cons {k : Nat} {b : Byte} {m : Memory} :
    Memory.wf ((k, b) :: m) = true ↔
      k ≤ Config.memTop ∧ b ≠ absentByte k ∧ (∀ c ∈ m, k < c.1) ∧ m.wf = true := by
  simp only [wf, Bool.and_eq_true, decide_eq_true_eq, List.all_eq_true, and_assoc]

theorem Memory.mem_remove {m : Memory} {a : Nat} {e : Host.Cell} (h : e ∈ m.remove a) : e ∈ m := by
  induction m with
  | nil => exact h
  | cons d m ih =>
    obtain ⟨k, b⟩ := d
    simp only [remove] at h
    split at h
    · exact List.mem_cons_of_mem _ (ih h)
    · rcases List.mem_cons.mp h with h | h
      · exact List.mem_cons.mpr (Or.inl h)
      · exact List.mem_cons_of_mem _ (ih h)

theorem Memory.wf_remove {m : Memory} (h : m.wf = true) (a : Nat) : (m.remove a).wf = true := by
  induction m with
  | nil => rfl
  | cons d m ih =>
    obtain ⟨k, b⟩ := d
    obtain ⟨h1, h2, h3, h4⟩ := wf_cons.mp h
    simp only [remove]
    split
    · exact ih h4
    · exact wf_cons.mpr ⟨h1, h2, fun c hc => h3 c (mem_remove hc), ih h4⟩

theorem Memory.mem_insert {m : Memory} {a : Nat} {b : Byte} {e : Host.Cell} (h : e ∈ m.insert a b) :
    e.1 = a ∨ e ∈ m := by
  induction m with
  | nil => simp only [insert, List.mem_singleton] at h; exact Or.inl (by rw [h])
  | cons d m ih =>
    obtain ⟨k, c⟩ := d
    simp only [insert] at h
    split at h
    · rcases List.mem_cons.mp h with h | h
      · exact Or.inl (by rw [h])
      · exact Or.inr h
    · split at h
      · rcases List.mem_cons.mp h with h | h
        · exact Or.inl (by rw [h])
        · exact Or.inr (List.mem_cons_of_mem _ h)
      · rcases List.mem_cons.mp h with h | h
        · exact Or.inr (by rw [h]; exact List.mem_cons_self ..)
        · exact (ih h).imp_right (List.mem_cons_of_mem _)

theorem Memory.wf_insert {m : Memory} (h : m.wf = true) {a : Nat} (ha : a ≤ Config.memTop) {b : Byte}
    (hb : b ≠ absentByte a) : (m.insert a b).wf = true := by
  induction m with
  | nil => exact wf_cons.mpr ⟨ha, hb, fun c hc => absurd hc (List.not_mem_nil), rfl⟩
  | cons d m ih =>
    obtain ⟨k, c⟩ := d
    obtain ⟨h1, h2, h3, h4⟩ := wf_cons.mp h
    simp only [insert]
    split
    · next hk =>
      refine wf_cons.mpr ⟨ha, hb, fun e he => ?_, h⟩
      rcases List.mem_cons.mp he with he | he
      · rw [he]; exact hk
      · exact lt_trans hk (h3 e he)
    · split
      · next hk => subst hk; exact wf_cons.mpr ⟨ha, hb, h3, h4⟩
      · next hlt hne =>
        refine wf_cons.mpr ⟨h1, h2, fun e he => ?_, ih h4⟩
        rcases mem_insert he with he | he
        · rw [he]; omega
        · exact h3 e he

/-- Every write inside the address space keeps the canonical form. -/
theorem Memory.wf_put {m : Memory} (h : m.wf = true) {a : Nat} (ha : a ≤ Config.memTop) (b : Byte) :
    (m.put a b).wf = true := by
  unfold put
  split
  · exact wf_remove h a
  · next hb => exact wf_insert h ha hb

/-! ### Groups -/

@[simp] theorem Memory.length_bytesFrom (m : Memory) (a n : Nat) : (m.bytesFrom a n).length = n := by
  induction n generalizing a with
  | zero => rfl
  | succ n ih => simp [bytesFrom, ih]

theorem Memory.getElem?_bytesFrom (m : Memory) (a n j : Nat) (h : j < n) :
    (m.bytesFrom a n)[j]? = some (m.byteAt (a + j)) := by
  induction n generalizing a j with
  | zero => omega
  | succ n ih =>
    cases j with
    | zero => simp [bytesFrom]
    | succ j => simp only [bytesFrom, List.getElem?_cons_succ, ih (a + 1) j (by omega)]; congr 2; omega

/-- What a group of writes leaves at every address: its own byte inside the group, the old byte outside (R52, R53). -/
theorem Memory.byteAt_putFrom (m : Memory) (a : Nat) (bs : List Byte) (c : Nat) :
    (m.putFrom a bs).byteAt c = if a ≤ c ∧ c < a + bs.length then bs.getD (c - a) 0 else m.byteAt c := by
  induction bs generalizing m a with
  | nil => simp only [putFrom, List.length_nil]; rw [if_neg (by omega)]
  | cons b bs ih =>
    rw [putFrom, ih, byteAt_put, List.length_cons]
    rcases Nat.lt_trichotomy c a with h | h | h
    · rw [if_neg (by omega), if_neg (by omega), if_neg (by omega)]
    · subst h; simp
    · obtain ⟨d, hd⟩ : ∃ d, c - a = d + 1 := ⟨c - a - 1, by omega⟩
      rw [hd, List.getD_cons_succ, show c - (a + 1) = d by omega]
      by_cases h2 : c < a + 1 + bs.length
      · rw [if_pos (by omega), if_pos (by omega)]
      · rw [if_neg (by omega), if_neg (by omega), if_neg (by omega)]

theorem Memory.byteAt_putFrom_outside (m : Memory) {a c : Nat} {bs : List Byte}
    (h : c < a ∨ a + bs.length ≤ c) : (m.putFrom a bs).byteAt c = m.byteAt c := by
  rw [byteAt_putFrom, if_neg (by omega)]

theorem Memory.wf_putFrom {m : Memory} (h : m.wf = true) {a : Nat} {bs : List Byte}
    (ha : bs = [] ∨ a + bs.length ≤ Config.memSize) : (m.putFrom a bs).wf = true := by
  induction bs generalizing m a with
  | nil => exact h
  | cons b bs ih =>
    rcases ha with ha | ha
    · exact absurd ha (by simp)
    · simp only [List.length_cons, Config.memSize] at ha
      exact ih (wf_put h (by simp only [Config.memTop]; omega) b) (Or.inr (by simp only [Config.memSize]; omega))

theorem groupInRange_iff (a n : Nat) : groupInRange a n = true ↔ n = 0 ∨ a + n ≤ Config.memSize := by
  simp only [groupInRange, decide_eq_true_eq, Config.memTop, Config.memSize]; omega

/-- All a group of reads can answer. -/
theorem memReadGroup_eq (m : Memory) (a n : Nat) :
    memReadGroup m a n = if n = 0 ∨ a + n ≤ Config.memSize then some (m.bytesFrom a n) else none := by
  simp only [memReadGroup, groupInRange_iff]

/-- All a group of writes can answer. -/
theorem memWriteGroup_eq (m : Memory) (a : Nat) (bs : List Byte) :
    memWriteGroup m a bs = if bs.length = 0 ∨ a + bs.length ≤ Config.memSize then some (m.putFrom a bs) else none := by
  simp only [memWriteGroup, groupInRange_iff]

theorem memReadGroup_ok {m : Memory} {a n : Nat} (h : n = 0 ∨ a + n ≤ 0x1000) :
    memReadGroup m a n = some (m.bytesFrom a n) := (memReadGroup_eq m a n).trans (if_pos h)

theorem memReadGroup_fail {m : Memory} {a n : Nat} (h0 : n ≠ 0) (h : 0x1000 < a + n) : memReadGroup m a n = none :=
  (memReadGroup_eq m a n).trans (if_neg (by simp only [Config.memSize]; omega))

theorem memWriteGroup_ok {m : Memory} {a : Nat} {bs : List Byte} (h : a + bs.length ≤ 0x1000) :
    memWriteGroup m a bs = some (m.putFrom a bs) := (memWriteGroup_eq m a bs).trans (if_pos (Or.inr h))

theorem memWriteGroup_fail {m : Memory} {a : Nat} {bs : List Byte} (h0 : bs.length ≠ 0) (h : 0x1000 < a + bs.length) :
    memWriteGroup m a bs = none :=
  (memWriteGroup_eq m a bs).trans (if_neg (by simp only [Config.memSize]; omega))

/-- A group of writes that answers keeps the canonical form. -/
theorem memWriteGroup_wf {m m' : Memory} (h : m.wf = true) {a : Nat} {bs : List Byte}
    (hw : memWriteGroup m a bs = some m') : m'.wf = true := by
  rw [memWriteGroup_eq] at hw
  split at hw
  · next hr =>
    cases hw
    exact Memory.wf_putFrom h (hr.imp_left List.length_eq_zero_iff.mp)
  · cases hw

/-- One checked write keeps the canonical form (R48). -/
theorem memWrite_wf {m m' : Memory} (h : m.wf = true) {a : Nat} {b : Byte} (hw : memWrite m a b = some m') :
    m'.wf = true := by
  unfold memWrite at hw
  split at hw
  · cases hw
  · next ha => cases hw; exact Memory.wf_put h (by omega) b

/-- Reset's memory lists nothing. -/
theorem reset_mem_wf : State.reset.mem.wf = true := rfl

/-- A word placed for fetch is the word fetch reads (R50). -/
theorem Memory.wordAt_putWord (m : Memory) (a : Nat) (w : Word) : (m.putWord a w).wordAt a = w := by
  simp only [wordAt, putWord, putFrom, byteAt_put]
  rw [if_neg (by omega), if_pos trivial, if_pos trivial]
  exact wordOfBytes_split w

end Sys2Proof.Machine
end

