-- ==== Sys2Proof/Laws/State.lean ====
section
/-! SUPPORT. One lemma per field of State and update of it, so that no proof unfolds a record update. -/

namespace Sys2Proof.Machine

variable (s : State)

/-! ### setReg -/

@[simp] theorem State.setReg_v (x : RegIdx) (b : Byte) : (s.setReg x b).v = s.v.set x b := rfl
@[simp] theorem State.setReg_iReg (x : RegIdx) (b : Byte) : (s.setReg x b).iReg = s.iReg := rfl
@[simp] theorem State.setReg_pc (x : RegIdx) (b : Byte) : (s.setReg x b).pc = s.pc := rfl
@[simp] theorem State.setReg_stack (x : RegIdx) (b : Byte) : (s.setReg x b).stack = s.stack := rfl
@[simp] theorem State.setReg_sp (x : RegIdx) (b : Byte) : (s.setReg x b).sp = s.sp := rfl
@[simp] theorem State.setReg_dt (x : RegIdx) (b : Byte) : (s.setReg x b).dt = s.dt := rfl
@[simp] theorem State.setReg_st (x : RegIdx) (b : Byte) : (s.setReg x b).st = s.st := rfl
@[simp] theorem State.setReg_disp (x : RegIdx) (b : Byte) : (s.setReg x b).disp = s.disp := rfl
@[simp] theorem State.setReg_status (x : RegIdx) (b : Byte) : (s.setReg x b).status = s.status := rfl
@[simp] theorem State.setReg_keys (x : RegIdx) (b : Byte) : (s.setReg x b).keys = s.keys := rfl
@[simp] theorem State.setReg_mem (x : RegIdx) (b : Byte) : (s.setReg x b).mem = s.mem := rfl
@[simp] theorem State.setReg_rnd (x : RegIdx) (b : Byte) : (s.setReg x b).rnd = s.rnd := rfl
@[simp] theorem State.setReg_inputs (x : RegIdx) (b : Byte) : (s.setReg x b).inputs = s.inputs := rfl
@[simp] theorem State.setReg_draws (x : RegIdx) (b : Byte) : (s.setReg x b).draws = s.draws := rfl

/-! ### setI -/

@[simp] theorem State.setI_v (a : Word) : (s.setI a).v = s.v := rfl
@[simp] theorem State.setI_iReg (a : Word) : (s.setI a).iReg = a := rfl
@[simp] theorem State.setI_pc (a : Word) : (s.setI a).pc = s.pc := rfl
@[simp] theorem State.setI_stack (a : Word) : (s.setI a).stack = s.stack := rfl
@[simp] theorem State.setI_sp (a : Word) : (s.setI a).sp = s.sp := rfl
@[simp] theorem State.setI_dt (a : Word) : (s.setI a).dt = s.dt := rfl
@[simp] theorem State.setI_st (a : Word) : (s.setI a).st = s.st := rfl
@[simp] theorem State.setI_disp (a : Word) : (s.setI a).disp = s.disp := rfl
@[simp] theorem State.setI_status (a : Word) : (s.setI a).status = s.status := rfl
@[simp] theorem State.setI_keys (a : Word) : (s.setI a).keys = s.keys := rfl
@[simp] theorem State.setI_mem (a : Word) : (s.setI a).mem = s.mem := rfl
@[simp] theorem State.setI_rnd (a : Word) : (s.setI a).rnd = s.rnd := rfl
@[simp] theorem State.setI_inputs (a : Word) : (s.setI a).inputs = s.inputs := rfl
@[simp] theorem State.setI_draws (a : Word) : (s.setI a).draws = s.draws := rfl

/-! ### setPc -/

@[simp] theorem State.setPc_v (a : Word) : (s.setPc a).v = s.v := rfl
@[simp] theorem State.setPc_iReg (a : Word) : (s.setPc a).iReg = s.iReg := rfl
@[simp] theorem State.setPc_pc (a : Word) : (s.setPc a).pc = a := rfl
@[simp] theorem State.setPc_stack (a : Word) : (s.setPc a).stack = s.stack := rfl
@[simp] theorem State.setPc_sp (a : Word) : (s.setPc a).sp = s.sp := rfl
@[simp] theorem State.setPc_dt (a : Word) : (s.setPc a).dt = s.dt := rfl
@[simp] theorem State.setPc_st (a : Word) : (s.setPc a).st = s.st := rfl
@[simp] theorem State.setPc_disp (a : Word) : (s.setPc a).disp = s.disp := rfl
@[simp] theorem State.setPc_status (a : Word) : (s.setPc a).status = s.status := rfl
@[simp] theorem State.setPc_keys (a : Word) : (s.setPc a).keys = s.keys := rfl
@[simp] theorem State.setPc_mem (a : Word) : (s.setPc a).mem = s.mem := rfl
@[simp] theorem State.setPc_rnd (a : Word) : (s.setPc a).rnd = s.rnd := rfl
@[simp] theorem State.setPc_inputs (a : Word) : (s.setPc a).inputs = s.inputs := rfl
@[simp] theorem State.setPc_draws (a : Word) : (s.setPc a).draws = s.draws := rfl

/-! ### advancePc -/

@[simp] theorem State.advancePc_v : (s.advancePc).v = s.v := rfl
@[simp] theorem State.advancePc_iReg : (s.advancePc).iReg = s.iReg := rfl
@[simp] theorem State.advancePc_pc : (s.advancePc).pc = s.pc + 2 := rfl
@[simp] theorem State.advancePc_stack : (s.advancePc).stack = s.stack := rfl
@[simp] theorem State.advancePc_sp : (s.advancePc).sp = s.sp := rfl
@[simp] theorem State.advancePc_dt : (s.advancePc).dt = s.dt := rfl
@[simp] theorem State.advancePc_st : (s.advancePc).st = s.st := rfl
@[simp] theorem State.advancePc_disp : (s.advancePc).disp = s.disp := rfl
@[simp] theorem State.advancePc_status : (s.advancePc).status = s.status := rfl
@[simp] theorem State.advancePc_keys : (s.advancePc).keys = s.keys := rfl
@[simp] theorem State.advancePc_mem : (s.advancePc).mem = s.mem := rfl
@[simp] theorem State.advancePc_rnd : (s.advancePc).rnd = s.rnd := rfl
@[simp] theorem State.advancePc_inputs : (s.advancePc).inputs = s.inputs := rfl
@[simp] theorem State.advancePc_draws : (s.advancePc).draws = s.draws := rfl

/-! ### rewindPc -/

@[simp] theorem State.rewindPc_v : (s.rewindPc).v = s.v := rfl
@[simp] theorem State.rewindPc_iReg : (s.rewindPc).iReg = s.iReg := rfl
@[simp] theorem State.rewindPc_pc : (s.rewindPc).pc = s.pc - 2 := rfl
@[simp] theorem State.rewindPc_stack : (s.rewindPc).stack = s.stack := rfl
@[simp] theorem State.rewindPc_sp : (s.rewindPc).sp = s.sp := rfl
@[simp] theorem State.rewindPc_dt : (s.rewindPc).dt = s.dt := rfl
@[simp] theorem State.rewindPc_st : (s.rewindPc).st = s.st := rfl
@[simp] theorem State.rewindPc_disp : (s.rewindPc).disp = s.disp := rfl
@[simp] theorem State.rewindPc_status : (s.rewindPc).status = s.status := rfl
@[simp] theorem State.rewindPc_keys : (s.rewindPc).keys = s.keys := rfl
@[simp] theorem State.rewindPc_mem : (s.rewindPc).mem = s.mem := rfl
@[simp] theorem State.rewindPc_rnd : (s.rewindPc).rnd = s.rnd := rfl
@[simp] theorem State.rewindPc_inputs : (s.rewindPc).inputs = s.inputs := rfl
@[simp] theorem State.rewindPc_draws : (s.rewindPc).draws = s.draws := rfl

/-! ### setDt -/

@[simp] theorem State.setDt_v (b : Byte) : (s.setDt b).v = s.v := rfl
@[simp] theorem State.setDt_iReg (b : Byte) : (s.setDt b).iReg = s.iReg := rfl
@[simp] theorem State.setDt_pc (b : Byte) : (s.setDt b).pc = s.pc := rfl
@[simp] theorem State.setDt_stack (b : Byte) : (s.setDt b).stack = s.stack := rfl
@[simp] theorem State.setDt_sp (b : Byte) : (s.setDt b).sp = s.sp := rfl
@[simp] theorem State.setDt_dt (b : Byte) : (s.setDt b).dt = b := rfl
@[simp] theorem State.setDt_st (b : Byte) : (s.setDt b).st = s.st := rfl
@[simp] theorem State.setDt_disp (b : Byte) : (s.setDt b).disp = s.disp := rfl
@[simp] theorem State.setDt_status (b : Byte) : (s.setDt b).status = s.status := rfl
@[simp] theorem State.setDt_keys (b : Byte) : (s.setDt b).keys = s.keys := rfl
@[simp] theorem State.setDt_mem (b : Byte) : (s.setDt b).mem = s.mem := rfl
@[simp] theorem State.setDt_rnd (b : Byte) : (s.setDt b).rnd = s.rnd := rfl
@[simp] theorem State.setDt_inputs (b : Byte) : (s.setDt b).inputs = s.inputs := rfl
@[simp] theorem State.setDt_draws (b : Byte) : (s.setDt b).draws = s.draws := rfl

/-! ### setSt -/

@[simp] theorem State.setSt_v (b : Byte) : (s.setSt b).v = s.v := rfl
@[simp] theorem State.setSt_iReg (b : Byte) : (s.setSt b).iReg = s.iReg := rfl
@[simp] theorem State.setSt_pc (b : Byte) : (s.setSt b).pc = s.pc := rfl
@[simp] theorem State.setSt_stack (b : Byte) : (s.setSt b).stack = s.stack := rfl
@[simp] theorem State.setSt_sp (b : Byte) : (s.setSt b).sp = s.sp := rfl
@[simp] theorem State.setSt_dt (b : Byte) : (s.setSt b).dt = s.dt := rfl
@[simp] theorem State.setSt_st (b : Byte) : (s.setSt b).st = b := rfl
@[simp] theorem State.setSt_disp (b : Byte) : (s.setSt b).disp = s.disp := rfl
@[simp] theorem State.setSt_status (b : Byte) : (s.setSt b).status = s.status := rfl
@[simp] theorem State.setSt_keys (b : Byte) : (s.setSt b).keys = s.keys := rfl
@[simp] theorem State.setSt_mem (b : Byte) : (s.setSt b).mem = s.mem := rfl
@[simp] theorem State.setSt_rnd (b : Byte) : (s.setSt b).rnd = s.rnd := rfl
@[simp] theorem State.setSt_inputs (b : Byte) : (s.setSt b).inputs = s.inputs := rfl
@[simp] theorem State.setSt_draws (b : Byte) : (s.setSt b).draws = s.draws := rfl

/-! ### setStatus -/

@[simp] theorem State.setStatus_v (q : Status) : (s.setStatus q).v = s.v := rfl
@[simp] theorem State.setStatus_iReg (q : Status) : (s.setStatus q).iReg = s.iReg := rfl
@[simp] theorem State.setStatus_pc (q : Status) : (s.setStatus q).pc = s.pc := rfl
@[simp] theorem State.setStatus_stack (q : Status) : (s.setStatus q).stack = s.stack := rfl
@[simp] theorem State.setStatus_sp (q : Status) : (s.setStatus q).sp = s.sp := rfl
@[simp] theorem State.setStatus_dt (q : Status) : (s.setStatus q).dt = s.dt := rfl
@[simp] theorem State.setStatus_st (q : Status) : (s.setStatus q).st = s.st := rfl
@[simp] theorem State.setStatus_disp (q : Status) : (s.setStatus q).disp = s.disp := rfl
@[simp] theorem State.setStatus_status (q : Status) : (s.setStatus q).status = q := rfl
@[simp] theorem State.setStatus_keys (q : Status) : (s.setStatus q).keys = s.keys := rfl
@[simp] theorem State.setStatus_mem (q : Status) : (s.setStatus q).mem = s.mem := rfl
@[simp] theorem State.setStatus_rnd (q : Status) : (s.setStatus q).rnd = s.rnd := rfl
@[simp] theorem State.setStatus_inputs (q : Status) : (s.setStatus q).inputs = s.inputs := rfl
@[simp] theorem State.setStatus_draws (q : Status) : (s.setStatus q).draws = s.draws := rfl

/-! ### setMem -/

@[simp] theorem State.setMem_v (m : Memory) : (s.setMem m).v = s.v := rfl
@[simp] theorem State.setMem_iReg (m : Memory) : (s.setMem m).iReg = s.iReg := rfl
@[simp] theorem State.setMem_pc (m : Memory) : (s.setMem m).pc = s.pc := rfl
@[simp] theorem State.setMem_stack (m : Memory) : (s.setMem m).stack = s.stack := rfl
@[simp] theorem State.setMem_sp (m : Memory) : (s.setMem m).sp = s.sp := rfl
@[simp] theorem State.setMem_dt (m : Memory) : (s.setMem m).dt = s.dt := rfl
@[simp] theorem State.setMem_st (m : Memory) : (s.setMem m).st = s.st := rfl
@[simp] theorem State.setMem_disp (m : Memory) : (s.setMem m).disp = s.disp := rfl
@[simp] theorem State.setMem_status (m : Memory) : (s.setMem m).status = s.status := rfl
@[simp] theorem State.setMem_keys (m : Memory) : (s.setMem m).keys = s.keys := rfl
@[simp] theorem State.setMem_mem (m : Memory) : (s.setMem m).mem = m := rfl
@[simp] theorem State.setMem_rnd (m : Memory) : (s.setMem m).rnd = s.rnd := rfl
@[simp] theorem State.setMem_inputs (m : Memory) : (s.setMem m).inputs = s.inputs := rfl
@[simp] theorem State.setMem_draws (m : Memory) : (s.setMem m).draws = s.draws := rfl

/-! ### setDisp -/

@[simp] theorem State.setDisp_v (d : Display) : (s.setDisp d).v = s.v := rfl
@[simp] theorem State.setDisp_iReg (d : Display) : (s.setDisp d).iReg = s.iReg := rfl
@[simp] theorem State.setDisp_pc (d : Display) : (s.setDisp d).pc = s.pc := rfl
@[simp] theorem State.setDisp_stack (d : Display) : (s.setDisp d).stack = s.stack := rfl
@[simp] theorem State.setDisp_sp (d : Display) : (s.setDisp d).sp = s.sp := rfl
@[simp] theorem State.setDisp_dt (d : Display) : (s.setDisp d).dt = s.dt := rfl
@[simp] theorem State.setDisp_st (d : Display) : (s.setDisp d).st = s.st := rfl
@[simp] theorem State.setDisp_disp (d : Display) : (s.setDisp d).disp = d := rfl
@[simp] theorem State.setDisp_status (d : Display) : (s.setDisp d).status = s.status := rfl
@[simp] theorem State.setDisp_keys (d : Display) : (s.setDisp d).keys = s.keys := rfl
@[simp] theorem State.setDisp_mem (d : Display) : (s.setDisp d).mem = s.mem := rfl
@[simp] theorem State.setDisp_rnd (d : Display) : (s.setDisp d).rnd = s.rnd := rfl
@[simp] theorem State.setDisp_inputs (d : Display) : (s.setDisp d).inputs = s.inputs := rfl
@[simp] theorem State.setDisp_draws (d : Display) : (s.setDisp d).draws = s.draws := rfl

/-! ### takeFault -/

@[simp] theorem State.takeFault_v (k : Fault) (w info : Option Word) : (s.takeFault k w info).v = s.v := rfl
@[simp] theorem State.takeFault_iReg (k : Fault) (w info : Option Word) : (s.takeFault k w info).iReg = s.iReg := rfl
@[simp] theorem State.takeFault_pc (k : Fault) (w info : Option Word) : (s.takeFault k w info).pc = s.pc := rfl
@[simp] theorem State.takeFault_stack (k : Fault) (w info : Option Word) : (s.takeFault k w info).stack = s.stack := rfl
@[simp] theorem State.takeFault_sp (k : Fault) (w info : Option Word) : (s.takeFault k w info).sp = s.sp := rfl
@[simp] theorem State.takeFault_dt (k : Fault) (w info : Option Word) : (s.takeFault k w info).dt = s.dt := rfl
@[simp] theorem State.takeFault_st (k : Fault) (w info : Option Word) : (s.takeFault k w info).st = s.st := rfl
@[simp] theorem State.takeFault_disp (k : Fault) (w info : Option Word) : (s.takeFault k w info).disp = s.disp := rfl
@[simp] theorem State.takeFault_status (k : Fault) (w info : Option Word) : (s.takeFault k w info).status = .fault ⟨k, s.pc, w, info⟩ := rfl
@[simp] theorem State.takeFault_keys (k : Fault) (w info : Option Word) : (s.takeFault k w info).keys = s.keys := rfl
@[simp] theorem State.takeFault_mem (k : Fault) (w info : Option Word) : (s.takeFault k w info).mem = s.mem := rfl
@[simp] theorem State.takeFault_rnd (k : Fault) (w info : Option Word) : (s.takeFault k w info).rnd = s.rnd := rfl
@[simp] theorem State.takeFault_inputs (k : Fault) (w info : Option Word) : (s.takeFault k w info).inputs = s.inputs := rfl
@[simp] theorem State.takeFault_draws (k : Fault) (w info : Option Word) : (s.takeFault k w info).draws = s.draws := rfl

/-! ### raise -/

@[simp] theorem State.raise_v (i : Instr) (k : Fault) (info : Option Word) : (s.raise i k info).v = s.v := rfl
@[simp] theorem State.raise_iReg (i : Instr) (k : Fault) (info : Option Word) : (s.raise i k info).iReg = s.iReg := rfl
@[simp] theorem State.raise_pc (i : Instr) (k : Fault) (info : Option Word) : (s.raise i k info).pc = s.pc - 2 := rfl
@[simp] theorem State.raise_stack (i : Instr) (k : Fault) (info : Option Word) : (s.raise i k info).stack = s.stack := rfl
@[simp] theorem State.raise_sp (i : Instr) (k : Fault) (info : Option Word) : (s.raise i k info).sp = s.sp := rfl
@[simp] theorem State.raise_dt (i : Instr) (k : Fault) (info : Option Word) : (s.raise i k info).dt = s.dt := rfl
@[simp] theorem State.raise_st (i : Instr) (k : Fault) (info : Option Word) : (s.raise i k info).st = s.st := rfl
@[simp] theorem State.raise_disp (i : Instr) (k : Fault) (info : Option Word) : (s.raise i k info).disp = s.disp := rfl
@[simp] theorem State.raise_status (i : Instr) (k : Fault) (info : Option Word) : (s.raise i k info).status = .fault ⟨k, s.pc - 2, some (encode i), info⟩ := rfl
@[simp] theorem State.raise_keys (i : Instr) (k : Fault) (info : Option Word) : (s.raise i k info).keys = s.keys := rfl
@[simp] theorem State.raise_mem (i : Instr) (k : Fault) (info : Option Word) : (s.raise i k info).mem = s.mem := rfl
@[simp] theorem State.raise_rnd (i : Instr) (k : Fault) (info : Option Word) : (s.raise i k info).rnd = s.rnd := rfl
@[simp] theorem State.raise_inputs (i : Instr) (k : Fault) (info : Option Word) : (s.raise i k info).inputs = s.inputs := rfl
@[simp] theorem State.raise_draws (i : Instr) (k : Fault) (info : Option Word) : (s.raise i k info).draws = s.draws := rfl

/-! ### withInputs -/

@[simp] theorem State.withInputs_v (k : BitVec 16) (r : Byte) : (s.withInputs k r).v = s.v := rfl
@[simp] theorem State.withInputs_iReg (k : BitVec 16) (r : Byte) : (s.withInputs k r).iReg = s.iReg := rfl
@[simp] theorem State.withInputs_pc (k : BitVec 16) (r : Byte) : (s.withInputs k r).pc = s.pc := rfl
@[simp] theorem State.withInputs_stack (k : BitVec 16) (r : Byte) : (s.withInputs k r).stack = s.stack := rfl
@[simp] theorem State.withInputs_sp (k : BitVec 16) (r : Byte) : (s.withInputs k r).sp = s.sp := rfl
@[simp] theorem State.withInputs_dt (k : BitVec 16) (r : Byte) : (s.withInputs k r).dt = s.dt := rfl
@[simp] theorem State.withInputs_st (k : BitVec 16) (r : Byte) : (s.withInputs k r).st = s.st := rfl
@[simp] theorem State.withInputs_disp (k : BitVec 16) (r : Byte) : (s.withInputs k r).disp = s.disp := rfl
@[simp] theorem State.withInputs_status (k : BitVec 16) (r : Byte) : (s.withInputs k r).status = s.status := rfl
@[simp] theorem State.withInputs_keys (k : BitVec 16) (r : Byte) : (s.withInputs k r).keys = k := rfl
@[simp] theorem State.withInputs_mem (k : BitVec 16) (r : Byte) : (s.withInputs k r).mem = s.mem := rfl
@[simp] theorem State.withInputs_rnd (k : BitVec 16) (r : Byte) : (s.withInputs k r).rnd = r := rfl
@[simp] theorem State.withInputs_inputs (k : BitVec 16) (r : Byte) : (s.withInputs k r).inputs = s.inputs := rfl
@[simp] theorem State.withInputs_draws (k : BitVec 16) (r : Byte) : (s.withInputs k r).draws = s.draws := rfl

/-! ### tick -/

@[simp] theorem tick_v : (tick s).v = s.v := rfl
@[simp] theorem tick_iReg : (tick s).iReg = s.iReg := rfl
@[simp] theorem tick_pc : (tick s).pc = s.pc := rfl
@[simp] theorem tick_stack : (tick s).stack = s.stack := rfl
@[simp] theorem tick_sp : (tick s).sp = s.sp := rfl
@[simp] theorem tick_dt : (tick s).dt = countDown s.dt := rfl
@[simp] theorem tick_st : (tick s).st = countDown s.st := rfl
@[simp] theorem tick_disp : (tick s).disp = s.disp := rfl
@[simp] theorem tick_status : (tick s).status = s.status := rfl
@[simp] theorem tick_keys : (tick s).keys = s.keys := rfl
@[simp] theorem tick_mem : (tick s).mem = s.mem := rfl
@[simp] theorem tick_rnd : (tick s).rnd = s.rnd := rfl
@[simp] theorem tick_inputs : (tick s).inputs = s.inputs := rfl
@[simp] theorem tick_draws : (tick s).draws = s.draws := rfl

/-! ### skipIf -/

@[simp] theorem State.skipIf_v (c : Bool) : (s.skipIf c).v = s.v := by cases c <;> rfl
@[simp] theorem State.skipIf_iReg (c : Bool) : (s.skipIf c).iReg = s.iReg := by cases c <;> rfl
@[simp] theorem State.skipIf_pc (c : Bool) : (s.skipIf c).pc = if c then s.pc + 2 else s.pc := by cases c <;> rfl
@[simp] theorem State.skipIf_stack (c : Bool) : (s.skipIf c).stack = s.stack := by cases c <;> rfl
@[simp] theorem State.skipIf_sp (c : Bool) : (s.skipIf c).sp = s.sp := by cases c <;> rfl
@[simp] theorem State.skipIf_dt (c : Bool) : (s.skipIf c).dt = s.dt := by cases c <;> rfl
@[simp] theorem State.skipIf_st (c : Bool) : (s.skipIf c).st = s.st := by cases c <;> rfl
@[simp] theorem State.skipIf_disp (c : Bool) : (s.skipIf c).disp = s.disp := by cases c <;> rfl
@[simp] theorem State.skipIf_status (c : Bool) : (s.skipIf c).status = s.status := by cases c <;> rfl
@[simp] theorem State.skipIf_keys (c : Bool) : (s.skipIf c).keys = s.keys := by cases c <;> rfl
@[simp] theorem State.skipIf_mem (c : Bool) : (s.skipIf c).mem = s.mem := by cases c <;> rfl
@[simp] theorem State.skipIf_rnd (c : Bool) : (s.skipIf c).rnd = s.rnd := by cases c <;> rfl
@[simp] theorem State.skipIf_inputs (c : Bool) : (s.skipIf c).inputs = s.inputs := by cases c <;> rfl
@[simp] theorem State.skipIf_draws (c : Bool) : (s.skipIf c).draws = s.draws := by cases c <;> rfl

/-! ### setRegsFrom -/

@[simp] theorem State.setRegsFrom_iReg (k : Nat) (bs : List Byte) : (s.setRegsFrom k bs).iReg = s.iReg := by
  induction bs generalizing s k with
  | nil => rfl
  | cons b bs ih => exact ih _ _
@[simp] theorem State.setRegsFrom_pc (k : Nat) (bs : List Byte) : (s.setRegsFrom k bs).pc = s.pc := by
  induction bs generalizing s k with
  | nil => rfl
  | cons b bs ih => exact ih _ _
@[simp] theorem State.setRegsFrom_stack (k : Nat) (bs : List Byte) : (s.setRegsFrom k bs).stack = s.stack := by
  induction bs generalizing s k with
  | nil => rfl
  | cons b bs ih => exact ih _ _
@[simp] theorem State.setRegsFrom_sp (k : Nat) (bs : List Byte) : (s.setRegsFrom k bs).sp = s.sp := by
  induction bs generalizing s k with
  | nil => rfl
  | cons b bs ih => exact ih _ _
@[simp] theorem State.setRegsFrom_dt (k : Nat) (bs : List Byte) : (s.setRegsFrom k bs).dt = s.dt := by
  induction bs generalizing s k with
  | nil => rfl
  | cons b bs ih => exact ih _ _
@[simp] theorem State.setRegsFrom_st (k : Nat) (bs : List Byte) : (s.setRegsFrom k bs).st = s.st := by
  induction bs generalizing s k with
  | nil => rfl
  | cons b bs ih => exact ih _ _
@[simp] theorem State.setRegsFrom_disp (k : Nat) (bs : List Byte) : (s.setRegsFrom k bs).disp = s.disp := by
  induction bs generalizing s k with
  | nil => rfl
  | cons b bs ih => exact ih _ _
@[simp] theorem State.setRegsFrom_status (k : Nat) (bs : List Byte) : (s.setRegsFrom k bs).status = s.status := by
  induction bs generalizing s k with
  | nil => rfl
  | cons b bs ih => exact ih _ _
@[simp] theorem State.setRegsFrom_keys (k : Nat) (bs : List Byte) : (s.setRegsFrom k bs).keys = s.keys := by
  induction bs generalizing s k with
  | nil => rfl
  | cons b bs ih => exact ih _ _
@[simp] theorem State.setRegsFrom_mem (k : Nat) (bs : List Byte) : (s.setRegsFrom k bs).mem = s.mem := by
  induction bs generalizing s k with
  | nil => rfl
  | cons b bs ih => exact ih _ _
@[simp] theorem State.setRegsFrom_rnd (k : Nat) (bs : List Byte) : (s.setRegsFrom k bs).rnd = s.rnd := by
  induction bs generalizing s k with
  | nil => rfl
  | cons b bs ih => exact ih _ _
@[simp] theorem State.setRegsFrom_inputs (k : Nat) (bs : List Byte) : (s.setRegsFrom k bs).inputs = s.inputs := by
  induction bs generalizing s k with
  | nil => rfl
  | cons b bs ih => exact ih _ _
@[simp] theorem State.setRegsFrom_draws (k : Nat) (bs : List Byte) : (s.setRegsFrom k bs).draws = s.draws := by
  induction bs generalizing s k with
  | nil => rfl
  | cons b bs ih => exact ih _ _

/-! ### ticks -/

@[simp] theorem ticks_v (n : Nat) : (ticks n s).v = s.v := by
  induction n generalizing s with
  | zero => rfl
  | succ n ih => exact ih _
@[simp] theorem ticks_iReg (n : Nat) : (ticks n s).iReg = s.iReg := by
  induction n generalizing s with
  | zero => rfl
  | succ n ih => exact ih _
@[simp] theorem ticks_pc (n : Nat) : (ticks n s).pc = s.pc := by
  induction n generalizing s with
  | zero => rfl
  | succ n ih => exact ih _
@[simp] theorem ticks_stack (n : Nat) : (ticks n s).stack = s.stack := by
  induction n generalizing s with
  | zero => rfl
  | succ n ih => exact ih _
@[simp] theorem ticks_sp (n : Nat) : (ticks n s).sp = s.sp := by
  induction n generalizing s with
  | zero => rfl
  | succ n ih => exact ih _
@[simp] theorem ticks_disp (n : Nat) : (ticks n s).disp = s.disp := by
  induction n generalizing s with
  | zero => rfl
  | succ n ih => exact ih _
@[simp] theorem ticks_status (n : Nat) : (ticks n s).status = s.status := by
  induction n generalizing s with
  | zero => rfl
  | succ n ih => exact ih _
@[simp] theorem ticks_keys (n : Nat) : (ticks n s).keys = s.keys := by
  induction n generalizing s with
  | zero => rfl
  | succ n ih => exact ih _
@[simp] theorem ticks_mem (n : Nat) : (ticks n s).mem = s.mem := by
  induction n generalizing s with
  | zero => rfl
  | succ n ih => exact ih _
@[simp] theorem ticks_rnd (n : Nat) : (ticks n s).rnd = s.rnd := by
  induction n generalizing s with
  | zero => rfl
  | succ n ih => exact ih _
@[simp] theorem ticks_inputs (n : Nat) : (ticks n s).inputs = s.inputs := by
  induction n generalizing s with
  | zero => rfl
  | succ n ih => exact ih _
@[simp] theorem ticks_draws (n : Nat) : (ticks n s).draws = s.draws := by
  induction n generalizing s with
  | zero => rfl
  | succ n ih => exact ih _

/-! ### receiveInput -/

@[simp] theorem State.receiveInput_v : s.receiveInput.v = s.v := by
  unfold State.receiveInput; split <;> simp
@[simp] theorem State.receiveInput_iReg : s.receiveInput.iReg = s.iReg := by
  unfold State.receiveInput; split <;> simp
@[simp] theorem State.receiveInput_pc : s.receiveInput.pc = s.pc := by
  unfold State.receiveInput; split <;> simp
@[simp] theorem State.receiveInput_stack : s.receiveInput.stack = s.stack := by
  unfold State.receiveInput; split <;> simp
@[simp] theorem State.receiveInput_sp : s.receiveInput.sp = s.sp := by
  unfold State.receiveInput; split <;> simp
@[simp] theorem State.receiveInput_disp : s.receiveInput.disp = s.disp := by
  unfold State.receiveInput; split <;> simp
@[simp] theorem State.receiveInput_status : s.receiveInput.status = s.status := by
  unfold State.receiveInput; split <;> simp
@[simp] theorem State.receiveInput_mem : s.receiveInput.mem = s.mem := by
  unfold State.receiveInput; split <;> simp

/-! ### Reading registers back -/

@[simp] theorem State.reg_setReg (x y : RegIdx) (b : Byte) :
    (s.setReg x b).reg y = if x = y then b else s.reg y := by
  simp only [State.reg, State.setReg_v, Fin.getElem_fin, Vector.getElem_set, Fin.ext_iff]

theorem State.reg_setReg_same (x : RegIdx) (b : Byte) : (s.setReg x b).reg x = b := by simp

theorem State.reg_setReg_other {x y : RegIdx} (h : x ≠ y) (b : Byte) : (s.setReg x b).reg y = s.reg y := by simp [h]

/-- The register file decides its reads. -/
theorem State.reg_congr {s t : State} (h : s.v = t.v) (x : RegIdx) : s.reg x = t.reg x := by simp [State.reg, h]

/-- What LD Vx,[I]'s write of consecutive registers leaves in each one. -/
theorem State.reg_setRegsFrom (k : Nat) (bs : List Byte) (x : RegIdx) :
    (s.setRegsFrom k bs).reg x =
      if k ≤ x.val ∧ x.val < k + bs.length then bs.getD (x.val - k) 0 else s.reg x := by
  induction bs generalizing s k with
  | nil => simp [State.setRegsFrom]
  | cons b bs ih =>
    rw [State.setRegsFrom, ih]
    simp only [State.reg, Fin.getElem_fin, Vector.getElem_setIfInBounds, List.length_cons]
    rcases Nat.lt_trichotomy x.val k with h | h | h
    · rw [if_neg (by omega), if_neg (by omega), if_neg (by omega)]
    · subst h; simp
    · obtain ⟨d, hd⟩ : ∃ d, x.val - k = d + 1 := ⟨x.val - k - 1, by omega⟩
      rw [hd, List.getD_cons_succ, show x.val - (k + 1) = d by omega]
      by_cases h2 : x.val < k + 1 + bs.length
      · rw [if_pos (by omega), if_pos (by omega)]
      · rw [if_neg (by omega), if_neg (by omega), if_neg (by omega)]

end Sys2Proof.Machine
end

