-- ==== Sys2Proof/Laws/Ops.lean ====
section
/-! SUPPORT. One lemma for each shared operation on the stack, the keys, operands and fetch: everything it can answer. -/

namespace Sys2Proof.Machine

/-! ### The stack (R35) -/

theorem State.push_eq_none {s : State} {a : Word} : s.push a = none ↔ s.sp.val = 16 := by
  unfold State.push
  split
  · simp; omega
  · simp; omega

theorem State.push_eq_some {s t : State} {a : Word} (h : s.push a = some t) :
    ∃ hs : s.sp.val < 16, t = { s with stack := s.stack.set s.sp.val a, sp := ⟨s.sp.val + 1, by omega⟩ } := by
  unfold State.push at h
  split at h
  · next hs => exact ⟨hs, by simpa using h.symm⟩
  · cases h

theorem State.pop_eq_none {s : State} : s.pop = none ↔ s.sp.val = 0 := by
  unfold State.pop
  split
  · simp; omega
  · simp; omega

theorem State.pop_eq_some {s t : State} {a : Word} (h : s.pop = some (a, t)) :
    ∃ _ : 0 < s.sp.val, a = s.stack[s.sp.val - 1] ∧ t = { s with sp := ⟨s.sp.val - 1, by omega⟩ } := by
  unfold State.pop at h
  split at h
  · next hs => cases h; exact ⟨hs, rfl, rfl⟩
  · cases h

theorem State.push_of_lt {s : State} (h : s.sp.val < 16) (a : Word) :
    s.push a = some { s with stack := s.stack.set s.sp.val a, sp := ⟨s.sp.val + 1, by omega⟩ } := dif_pos h

theorem State.pop_of_pos {s : State} (h : 0 < s.sp.val) :
    s.pop = some (s.stack[s.sp.val - 1], { s with sp := ⟨s.sp.val - 1, by omega⟩ }) := dif_pos h

/-- What a write of one stack entry leaves at every index. -/
theorem State.entry_set (s t : State) {k : Nat} (hk : k < 16) (a : Word) (h : t.stack = s.stack.set k a) (j : Nat) :
    t.entry j = if j = k then a else s.entry j := by
  unfold State.entry
  simp only [h, Vector.getElem_set]
  by_cases hj : j = k
  · subst hj; simp [hk]
  · simp [hj, Ne.symm hj]

theorem State.entry_congr {s t : State} (h : s.stack = t.stack) (j : Nat) : s.entry j = t.entry j := by
  simp only [State.entry, h]

theorem State.entry_of_lt (s : State) {j : Nat} (h : j < 16) : s.entry j = s.stack[j] := dif_pos h

/-- A pop after a push gives the pushed address and the stack's depth back (R35). -/
theorem State.pop_push {s t : State} {a : Word} (h : s.push a = some t) :
    ∃ u, t.pop = some (a, u) ∧ u.sp = s.sp := by
  obtain ⟨hs, rfl⟩ := State.push_eq_some h
  refine ⟨_, by simp [State.pop]; rfl, ?_⟩
  simp

/-! ### Keys (R80) -/

theorem keySelect_eq_some {keys : BitVec 16} {k : Nat} (h : keySelect keys = some k) :
    k < 16 ∧ keys.getLsbD k = true ∧ ∀ j < k, keys.getLsbD j = false := by
  unfold keySelect at h
  obtain ⟨hp, hm⟩ := List.find?_eq_some_iff_getElem.mp h
  obtain ⟨i, hi, hk, hlt⟩ := hm
  simp only [List.getElem_range] at hk hlt
  subst hk
  simp only [List.length_range] at hi
  exact ⟨hi, hp, fun j hj => by simpa using hlt j hj⟩

theorem keySelect_eq_none {keys : BitVec 16} : keySelect keys = none ↔ keys = 0 := by
  unfold keySelect
  rw [List.find?_eq_none]
  constructor
  · intro h
    apply BitVec.eq_of_getLsbD_eq
    intro i hi
    have := h i (List.mem_range.mpr hi)
    simpa using this
  · rintro rfl k _; simp

/-! ### Operands -/

theorem hexDigit_eq (b : Byte) : hexDigit b = if b.toNat > 0xF then none else some b.toNat := rfl

@[simp] theorem State.length_regBlock (s : State) (x : RegIdx) : (s.regBlock x).length = x.val + 1 := by
  simp [State.regBlock]

/-- Entry `j` of the block V0 to Vx is `V[j]` (R116). -/
theorem State.getD_regBlock (s : State) (x j : RegIdx) (h : j ≤ x) : (s.regBlock x).getD j.val 0 = s.reg j := by
  have hj : j.val < x.val + 1 := Nat.lt_succ_of_le h
  simp [State.regBlock, State.reg, List.getD_eq_getElem?_getD, hj]

@[simp] theorem length_bcdDigits (b : Byte) : (bcdDigits b).length = 3 := by simp [bcdDigits]

/-! ### Fetch and decode (R74, R77) -/

theorem fetchOk_iff (a : Word) : fetchOk a = true ↔ a.toNat % 2 = 0 ∧ a.toNat ≤ 0xFFE := by
  simp only [fetchOk, Bool.and_eq_true, decide_eq_true_eq, Config.memTop]; omega

/-! ### The tick (R36) -/

theorem toNat_countDown (t : Byte) : (countDown t).toNat = t.toNat - 1 := by
  unfold countDown
  split
  · next h => subst h; rfl
  · next h =>
    have h0 : t.toNat ≠ 0 := fun e => h (BitVec.eq_of_toNat_eq (by simpa using e))
    have := t.isLt
    rw [BitVec.toNat_sub]
    show (2 ^ 8 - 1 + t.toNat) % 2 ^ 8 = t.toNat - 1
    omega

/-! ### Reset -/

theorem length_fontData : fontData.length = fontSize := by decide

/-- Copying the font keeps the canonical form. -/
theorem loadFont_wf {m : Memory} (h : m.wf = true) : (loadFont m).wf = true := by
  unfold loadFont
  exact Memory.wf_putFrom h (Or.inr (by rw [length_fontData]; decide))

@[simp] theorem State.resetOp_mem (s : State) (m : Memory) : (s.resetOp m).mem = loadFont m := by
  simp only [State.resetOp]
@[simp] theorem State.resetOp_v (s : State) (m : Memory) : (s.resetOp m).v = Vector.replicate 16 0 := by
  simp only [State.resetOp]
@[simp] theorem State.resetOp_iReg (s : State) (m : Memory) : (s.resetOp m).iReg = 0 := by
  simp only [State.resetOp]
@[simp] theorem State.resetOp_pc (s : State) (m : Memory) : (s.resetOp m).pc = 0x200 := by
  simp only [State.resetOp]
@[simp] theorem State.resetOp_stack (s : State) (m : Memory) : (s.resetOp m).stack = s.stack := by
  simp only [State.resetOp]
@[simp] theorem State.resetOp_sp (s : State) (m : Memory) : (s.resetOp m).sp = 0 := by
  simp only [State.resetOp]
@[simp] theorem State.resetOp_dt (s : State) (m : Memory) : (s.resetOp m).dt = 0 := by
  simp only [State.resetOp]
@[simp] theorem State.resetOp_st (s : State) (m : Memory) : (s.resetOp m).st = 0 := by
  simp only [State.resetOp]
@[simp] theorem State.resetOp_disp (s : State) (m : Memory) : (s.resetOp m).disp = Vector.replicate 32 (Vector.replicate 64 false) := by
  simp only [State.resetOp]
@[simp] theorem State.resetOp_status (s : State) (m : Memory) : (s.resetOp m).status = .run := by
  simp only [State.resetOp]
@[simp] theorem State.resetOp_keys (s : State) (m : Memory) : (s.resetOp m).keys = s.keys := by
  simp only [State.resetOp]
@[simp] theorem State.resetOp_rnd (s : State) (m : Memory) : (s.resetOp m).rnd = s.rnd := by
  simp only [State.resetOp]
@[simp] theorem State.resetOp_inputs (s : State) (m : Memory) : (s.resetOp m).inputs = s.inputs := by
  simp only [State.resetOp]
@[simp] theorem State.resetOp_draws (s : State) (m : Memory) : (s.resetOp m).draws = s.draws := by
  simp only [State.resetOp]

/-! ### The step -/

/-- All an engine step can do, by the status (R72). -/
theorem engineStep_cases (s : State) :
    (∃ r, s.status = .fault r ∧ engineStep s = .next s) ∨
    (∃ x, s.status = .waitKey x ∧ engineStep s = .next (waitStep x s)) ∨
    (s.status = .run ∧ engineStep s = runCycle s) := by
  unfold engineStep
  split
  · next r h => exact Or.inl ⟨r, h, rfl⟩
  · next x h => exact Or.inr (Or.inl ⟨x, h, rfl⟩)
  · next h => exact Or.inr (Or.inr ⟨h, rfl⟩)

/-- All a cycle can do: a fetch fault, an unknown word, or the decoded instruction (R72, R133). -/
theorem runCycle_cases (s : State) :
    (fetchOk s.pc = false ∧ runCycle s = .next (s.takeFault .outOfBounds none (some s.pc))) ∨
    (fetchOk s.pc = true ∧ decodeWord (s.mem.wordAt s.pc.toNat) = none ∧
      runCycle s = .next (s.takeFault .unknownOpcode (some (s.mem.wordAt s.pc.toNat)) (some (s.mem.wordAt s.pc.toNat)))) ∨
    (∃ i, fetchOk s.pc = true ∧ decodeWord (s.mem.wordAt s.pc.toNat) = some i ∧ runCycle s = exec i s.advancePc) := by
  unfold runCycle
  cases hf : fetchOk s.pc
  · exact Or.inl ⟨rfl, by simp⟩
  · cases hd : decodeWord (s.mem.wordAt s.pc.toNat) with
    | none => exact Or.inr (Or.inl ⟨rfl, rfl, by simp [hd]⟩)
    | some i => exact Or.inr (Or.inr ⟨i, rfl, rfl, by simp [hd]⟩)

end Sys2Proof.Machine
end

