-- ==== Sys2Proof/Laws/PerInstr.lean ====
section
/-! SUPPORT. Per-instruction lemmas: the opcode class of every instruction's encoding (30_encoding.md R66, the column `u`). -/

namespace Sys2Proof.Laws

/-- The opcode class `u` of an instruction (R66). -/
def opcodeClass : Instr → Nat
  | .cls => 0x0
  | .ret => 0x0
  | .sys _ => 0x0
  | .jp _ => 0x1
  | .call _ => 0x2
  | .seByte _ _ => 0x3
  | .sneByte _ _ => 0x4
  | .seReg _ _ => 0x5
  | .ldByte _ _ => 0x6
  | .addByte _ _ => 0x7
  | .ldReg _ _ => 0x8
  | .orReg _ _ => 0x8
  | .andReg _ _ => 0x8
  | .xorReg _ _ => 0x8
  | .addReg _ _ => 0x8
  | .subReg _ _ => 0x8
  | .shr _ _ => 0x8
  | .subn _ _ => 0x8
  | .shl _ _ => 0x8
  | .sneReg _ _ => 0x9
  | .ldI _ => 0xA
  | .jpV0 _ => 0xB
  | .rnd _ _ => 0xC
  | .drw _ _ _ => 0xD
  | .skp _ => 0xE
  | .sknp _ => 0xE
  | .ldVxDt _ => 0xF
  | .ldVxK _ => 0xF
  | .ldDtVx _ => 0xF
  | .ldStVx _ => 0xF
  | .addI _ => 0xF
  | .ldF _ => 0xF
  | .ldB _ => 0xF
  | .storeRegs _ => 0xF
  | .loadRegs _ => 0xF

/-- The encoding of `i` lies in its opcode class. -/
def EncodedClass.Statement (i : Instr) : Prop := (fieldU (encode i)).toNat = opcodeClass i

theorem EncodedClass.cls : EncodedClass.Statement .cls := rfl
theorem EncodedClass.ret : EncodedClass.Statement .ret := rfl
theorem EncodedClass.sys (nnn : Addr) : EncodedClass.Statement (.sys nnn) := congrArg BitVec.toNat (fieldU_encNnn ..)
theorem EncodedClass.jp (nnn : Addr) : EncodedClass.Statement (.jp nnn) := congrArg BitVec.toNat (fieldU_encNnn ..)
theorem EncodedClass.call (nnn : Addr) : EncodedClass.Statement (.call nnn) := congrArg BitVec.toNat (fieldU_encNnn ..)
theorem EncodedClass.seByte (x : RegIdx) (kk : Byte) : EncodedClass.Statement (.seByte x kk) := congrArg BitVec.toNat (fieldU_encXkk ..)
theorem EncodedClass.sneByte (x : RegIdx) (kk : Byte) : EncodedClass.Statement (.sneByte x kk) := congrArg BitVec.toNat (fieldU_encXkk ..)
theorem EncodedClass.seReg (x : RegIdx) (y : RegIdx) : EncodedClass.Statement (.seReg x y) := congrArg BitVec.toNat (fieldU_encXyn ..)
theorem EncodedClass.ldByte (x : RegIdx) (kk : Byte) : EncodedClass.Statement (.ldByte x kk) := congrArg BitVec.toNat (fieldU_encXkk ..)
theorem EncodedClass.addByte (x : RegIdx) (kk : Byte) : EncodedClass.Statement (.addByte x kk) := congrArg BitVec.toNat (fieldU_encXkk ..)
theorem EncodedClass.ldReg (x : RegIdx) (y : RegIdx) : EncodedClass.Statement (.ldReg x y) := congrArg BitVec.toNat (fieldU_encXyn ..)
theorem EncodedClass.orReg (x : RegIdx) (y : RegIdx) : EncodedClass.Statement (.orReg x y) := congrArg BitVec.toNat (fieldU_encXyn ..)
theorem EncodedClass.andReg (x : RegIdx) (y : RegIdx) : EncodedClass.Statement (.andReg x y) := congrArg BitVec.toNat (fieldU_encXyn ..)
theorem EncodedClass.xorReg (x : RegIdx) (y : RegIdx) : EncodedClass.Statement (.xorReg x y) := congrArg BitVec.toNat (fieldU_encXyn ..)
theorem EncodedClass.addReg (x : RegIdx) (y : RegIdx) : EncodedClass.Statement (.addReg x y) := congrArg BitVec.toNat (fieldU_encXyn ..)
theorem EncodedClass.subReg (x : RegIdx) (y : RegIdx) : EncodedClass.Statement (.subReg x y) := congrArg BitVec.toNat (fieldU_encXyn ..)
theorem EncodedClass.shr (x : RegIdx) (y : RegIdx) : EncodedClass.Statement (.shr x y) := congrArg BitVec.toNat (fieldU_encXyn ..)
theorem EncodedClass.subn (x : RegIdx) (y : RegIdx) : EncodedClass.Statement (.subn x y) := congrArg BitVec.toNat (fieldU_encXyn ..)
theorem EncodedClass.shl (x : RegIdx) (y : RegIdx) : EncodedClass.Statement (.shl x y) := congrArg BitVec.toNat (fieldU_encXyn ..)
theorem EncodedClass.sneReg (x : RegIdx) (y : RegIdx) : EncodedClass.Statement (.sneReg x y) := congrArg BitVec.toNat (fieldU_encXyn ..)
theorem EncodedClass.ldI (nnn : Addr) : EncodedClass.Statement (.ldI nnn) := congrArg BitVec.toNat (fieldU_encNnn ..)
theorem EncodedClass.jpV0 (nnn : Addr) : EncodedClass.Statement (.jpV0 nnn) := congrArg BitVec.toNat (fieldU_encNnn ..)
theorem EncodedClass.rnd (x : RegIdx) (kk : Byte) : EncodedClass.Statement (.rnd x kk) := congrArg BitVec.toNat (fieldU_encXkk ..)
theorem EncodedClass.drw (x : RegIdx) (y : RegIdx) (n : Nibble) : EncodedClass.Statement (.drw x y n) := congrArg BitVec.toNat (fieldU_encXyn ..)
theorem EncodedClass.skp (x : RegIdx) : EncodedClass.Statement (.skp x) := congrArg BitVec.toNat (fieldU_encXkk ..)
theorem EncodedClass.sknp (x : RegIdx) : EncodedClass.Statement (.sknp x) := congrArg BitVec.toNat (fieldU_encXkk ..)
theorem EncodedClass.ldVxDt (x : RegIdx) : EncodedClass.Statement (.ldVxDt x) := congrArg BitVec.toNat (fieldU_encXkk ..)
theorem EncodedClass.ldVxK (x : RegIdx) : EncodedClass.Statement (.ldVxK x) := congrArg BitVec.toNat (fieldU_encXkk ..)
theorem EncodedClass.ldDtVx (x : RegIdx) : EncodedClass.Statement (.ldDtVx x) := congrArg BitVec.toNat (fieldU_encXkk ..)
theorem EncodedClass.ldStVx (x : RegIdx) : EncodedClass.Statement (.ldStVx x) := congrArg BitVec.toNat (fieldU_encXkk ..)
theorem EncodedClass.addI (x : RegIdx) : EncodedClass.Statement (.addI x) := congrArg BitVec.toNat (fieldU_encXkk ..)
theorem EncodedClass.ldF (x : RegIdx) : EncodedClass.Statement (.ldF x) := congrArg BitVec.toNat (fieldU_encXkk ..)
theorem EncodedClass.ldB (x : RegIdx) : EncodedClass.Statement (.ldB x) := congrArg BitVec.toNat (fieldU_encXkk ..)
theorem EncodedClass.storeRegs (x : RegIdx) : EncodedClass.Statement (.storeRegs x) := congrArg BitVec.toNat (fieldU_encXkk ..)
theorem EncodedClass.loadRegs (x : RegIdx) : EncodedClass.Statement (.loadRegs x) := congrArg BitVec.toNat (fieldU_encXkk ..)

end Sys2Proof.Laws
end

