-- ==== Sys2Proof/Laws/Screen.lean ====
section
/-! SUPPORT. The laws of the pixel buffer: reading a pixel after a write, a clear or a flip, and equality by pixels. -/

namespace Sys2Proof.Machine

@[simp] theorem Display.pixel_setPixel (d : Display) (py qy : Fin 32) (px qx : Fin 64) (on : Bool) :
    (d.setPixel py px on).pixel qy qx = if qy = py ∧ qx = px then on else d.pixel qy qx := by
  simp only [Display.setPixel, Display.pixel, Fin.getElem_fin, Vector.getElem_set, Fin.ext_iff]
  by_cases h1 : py.val = qy.val
  · by_cases h2 : px.val = qx.val
    · simp [h1, h2]
    · simp [h1, h2, Ne.symm h2]
  · simp [h1, Ne.symm h1]

@[simp] theorem Display.pixel_clear (py : Fin 32) (px : Fin 64) : Display.clear.pixel py px = false := by
  simp [Display.clear, Display.pixel]

/-- Two buffers with the same pixels are equal. -/
theorem Display.ext_pixel {d e : Display} (h : ∀ py px, d.pixel py px = e.pixel py px) : d = e :=
  Vector.ext fun i hi => Vector.ext fun j hj => h ⟨i, hi⟩ ⟨j, hj⟩

@[simp] theorem Canvas.pixel_flip (c : Canvas) (py qy : Fin 32) (px qx : Fin 64) :
    (c.flip py px).disp.pixel qy qx =
      if qy = py ∧ qx = px then !c.disp.pixel py px else c.disp.pixel qy qx :=
  Display.pixel_setPixel ..

@[simp] theorem Canvas.collide_flip (c : Canvas) (py : Fin 32) (px : Fin 64) :
    (c.flip py px).collide = (c.collide || c.disp.pixel py px) := rfl

end Sys2Proof.Machine
end

