-- ==== Sys2Proof/Tests/Slice0.lean ====
section
/-! SUPPORT. The model's own tests. Expected values are the spec's: the words of 30_encoding.md R71, the examples in the
instruction rules, and the vectors of 95_test_vectors.md, named by their id. After them, for each statement with hypotheses a
theorem that shows a state and operands that meet them. -/

namespace Sys2Proof.Tests

open Sys2Proof Sys2Proof.Machine

/-! ## Helpers -/

/-- Registers named in the list, the others 0. -/
def regs (l : List (RegIdx × Byte)) : Vector Byte 16 :=
  l.foldl (fun v c => v.set c.1 c.2) (Vector.replicate 16 0)

/-- The state after one step that runs the word `w` in `s`. -/
def run (w : Nat) (s : State) : State :=
  match step (s.withFetchWord 16 w) with
  | .next t => t
  | .fault _ => s
  | .refused _ => s

/-- The reset state with the registers of the list. -/
def start (l : List (RegIdx × Byte)) : State := { State.reset with v := regs l }

/-- The state after `n` more steps. -/
def again (s : State) : State :=
  match step s with
  | .next t => t
  | .fault _ => s
  | .refused _ => s

/-- The pixels that are on in the top-left corner of `rows` by `cols`, row by row. -/
def corner (d : Display) (rows cols : Nat) : List (List Bool) :=
  (d.toList.take rows).map fun r => r.toList.take cols

/-- The number of pixels that are on. -/
def lit (d : Display) : Nat := (d.toList.map fun r => (r.toList.filter id).length).sum

/-! ## Well-formedness -/

theorem test_wf_refuses_sys_of_cls : (Instr.sys 0x0E0).wf = false := by decide
theorem test_wf_refuses_sys_of_ret : (Instr.sys 0x0EE).wf = false := by decide
theorem test_wf_accepts_other_sys : (Instr.sys 0x1E0).wf = true ∧ (Instr.sys 0).wf = true ∧ Instr.cls.wf = true := by decide

/-! ## Decoding: one word for every constructor, from R71 and the opcode table -/

theorem test_decode_fixed : decodeWord 0b0000_0000_1110_0000 = some .cls ∧ decodeWord 0b0000_0000_1110_1110 = some .ret := by
  decide
theorem test_decode_nnn :
    decodeWord 0b0000_0001_0010_0011 = some (.sys 0x123) ∧ decodeWord 0b0001_1010_1011_1100 = some (.jp 0xABC) ∧
    decodeWord 0b0010_0011_0000_0001 = some (.call 0x301) ∧ decodeWord 0b1010_0011_0000_0010 = some (.ldI 0x302) ∧
    decodeWord 0b1011_1111_0000_0011 = some (.jpV0 0xF03) := by decide
theorem test_decode_xkk :
    decodeWord 0b0011_0011_0100_0010 = some (.seByte 3 0x42) ∧ decodeWord 0b0100_0011_0100_0010 = some (.sneByte 3 0x42) ∧
    decodeWord 0b0110_1010_0111_1011 = some (.ldByte 0xA 0x7B) ∧ decodeWord 0b0111_0101_0000_0001 = some (.addByte 5 1) ∧
    decodeWord 0b1100_0011_0000_1111 = some (.rnd 3 0x0F) := by decide
theorem test_decode_xy :
    decodeWord 0b0101_0001_0010_0000 = some (.seReg 1 2) ∧ decodeWord 0b1001_0001_0010_0000 = some (.sneReg 1 2) := by decide
theorem test_decode_class8 :
    decodeWord 0b1000_0001_0010_0000 = some (.ldReg 1 2) ∧ decodeWord 0b1000_0001_0010_0001 = some (.orReg 1 2) ∧
    decodeWord 0b1000_0001_0010_0010 = some (.andReg 1 2) ∧ decodeWord 0b1000_0001_0010_0011 = some (.xorReg 1 2) ∧
    decodeWord 0b1000_0001_0010_0100 = some (.addReg 1 2) ∧ decodeWord 0b1000_0001_0010_0101 = some (.subReg 1 2) ∧
    decodeWord 0b1000_0001_0010_0110 = some (.shr 1 2) ∧ decodeWord 0b1000_0001_0010_0111 = some (.subn 1 2) ∧
    decodeWord 0b1000_0001_0010_1110 = some (.shl 1 2) := by decide
/-- L1-1. -/
theorem test_decode_xyn : decodeWord 0b1101_0001_0010_0011 = some (.drw 1 2 3) := by decide
theorem test_decode_classE :
    decodeWord 0b1110_0001_1001_1110 = some (.skp 1) ∧ decodeWord 0b1110_0001_1010_0001 = some (.sknp 1) := by decide
theorem test_decode_classF :
    decodeWord 0b1111_0011_0000_0111 = some (.ldVxDt 3) ∧ decodeWord 0b1111_0011_0000_1010 = some (.ldVxK 3) ∧
    decodeWord 0b1111_0011_0001_0101 = some (.ldDtVx 3) ∧ decodeWord 0b1111_0011_0001_1000 = some (.ldStVx 3) ∧
    decodeWord 0b1111_0011_0001_1110 = some (.addI 3) ∧ decodeWord 0b1111_0011_0010_1001 = some (.ldF 3) ∧
    decodeWord 0b1111_0011_0011_0011 = some (.ldB 3) ∧ decodeWord 0b1111_0011_0101_0101 = some (.storeRegs 3) ∧
    decodeWord 0b1111_0011_0110_0101 = some (.loadRegs 3) := by decide
/-- E4 to E8: illegal words, and a class-0 word that is SYS. -/
theorem test_decode_illegal :
    decodeWord 0x5001 = none ∧ decodeWord 0x9001 = none ∧ decodeWord 0x800F = none ∧ decodeWord 0x8008 = none ∧
    decodeWord 0xE000 = none ∧ decodeWord 0xF000 = none ∧ decodeWord 0xF0FF = none ∧ decodeWord 0x01E0 = some (.sys 0x1E0) := by
  decide
theorem test_decode_bytes : decode [0xD1, 0x23, 0x55] = .instr (.drw 1 2 3) [0x55] ∧ decode [0x50, 0x01] = .unknownOpcode 0x5001 ∧
    decode [0xD1] = .truncated := by decide
theorem test_table_word : decodeTableWord 16 0x8014 = some (.addReg 0 1) ∧ decodeTableWord 16 0x5001 = none := by decide

/-! ## The step -/

/-- E1: an odd `PC`. -/
theorem test_fetch_odd : (again { State.reset with pc := 0x201 }).status = .fault ⟨.outOfBounds, 0x201, none, some 0x201⟩ := by
  decide
/-- E2: an instruction at 0xFFE runs. -/
theorem test_fetch_top : (run 0x6042 { State.reset with pc := 0xFFE }).reg 0 = 0x42 ∧
    (run 0x6042 { State.reset with pc := 0xFFE }).pc = 0x1000 := by decide
/-- E3. -/
theorem test_fetch_beyond :
    (again { State.reset with pc := 0x1000 }).status = .fault ⟨.outOfBounds, 0x1000, none, some 0x1000⟩ := by decide
/-- E4: `PC` stays at the illegal word. -/
theorem test_illegal_word : (run 0x5001 State.reset).status = .fault ⟨.unknownOpcode, 0x200, some 0x5001, some 0x5001⟩ ∧
    (run 0x5001 State.reset).pc = 0x200 := by decide
/-- E10, E11: a fault stays, and a tick goes on. -/
theorem test_fault_sticky : (again (run 0x5001 State.reset)).status = (run 0x5001 State.reset).status ∧
    (tick { run 0x5001 State.reset with dt := 2 }).dt = 1 := by decide
/-- The first step from reset with nothing loaded (log entry 7; E9). -/
theorem test_first_step : (again State.reset).pc = 0x202 ∧ (again State.reset).status = .run := by decide
/-- P5, second program: a fault at the second instruction keeps the first one's effect. -/
theorem test_fault_keeps_earlier : (run 0x8008 (run 0x6001 State.reset)).reg 0 = 1 ∧
    (run 0x8008 (run 0x6001 State.reset)).status = .fault ⟨.unknownOpcode, 0x202, some 0x8008, some 0x8008⟩ := by decide
/-- The host's ticks, keys and random byte come before the step. -/
theorem test_schedule : (again { State.reset with dt := 5, inputs := [⟨2, 0x8, 0x11⟩] }).dt = 3 ∧
    (again { State.reset with dt := 5, inputs := [⟨2, 0x8, 0x11⟩] }).keys = 0x8 := by decide

/-! ## Control flow -/

/-- F15. -/
theorem test_sys : (run 0x0123 (start [(1, 7)])).pc = 0x202 ∧ (run 0x0123 (start [(1, 7)])).v = regs [(1, 7)] := by decide
/-- F1. -/
theorem test_jp : (run 0x1ABC State.reset).pc = 0xABC := by decide
/-- L1-5. -/
theorem test_call : (run 0x2300 State.reset).pc = 0x300 ∧ (run 0x2300 State.reset).sp = 1 ∧
    (run 0x2300 State.reset).entry 0 = 0x202 := by decide
/-- F2. -/
theorem test_call_full : (run 0x2300 { State.reset with sp := 16 }).status = .fault ⟨.stackOverflow, 0x200, some 0x2300, none⟩ ∧
    (run 0x2300 { State.reset with sp := 16 }).sp = 16 ∧ (run 0x2300 { State.reset with sp := 16 }).pc = 0x200 := by decide
/-- L1-5. -/
theorem test_ret : (run 0x00EE (run 0x2300 State.reset)).pc = 0x202 ∧ (run 0x00EE (run 0x2300 State.reset)).sp = 0 := by decide
/-- F4. -/
theorem test_ret_empty : (run 0x00EE State.reset).status = .fault ⟨.stackUnderflow, 0x200, some 0x00EE, none⟩ := by decide
/-- F5. -/
theorem test_se_byte : (run 0x3342 (start [(3, 0x42)])).pc = 0x204 ∧ (run 0x3343 (start [(3, 0x42)])).pc = 0x202 := by decide
/-- F6. -/
theorem test_sne_byte : (run 0x4342 (start [(3, 0x42)])).pc = 0x202 ∧ (run 0x4300 (start [(3, 0x42)])).pc = 0x204 := by decide
/-- F7. -/
theorem test_se_reg : (run 0x5010 (start [(0, 5), (1, 5)])).pc = 0x204 ∧ (run 0x5010 (start [(0, 5)])).pc = 0x202 := by decide
/-- F9, F10. -/
theorem test_sne_reg : (run 0x9010 (start [(0, 4), (1, 5)])).pc = 0x204 ∧ (run 0x9220 (start [(2, 9)])).pc = 0x202 := by decide
/-- F14: a skip from 0xFFC. -/
theorem test_skip_to_top : (run 0x3000 { State.reset with pc := 0xFFC }).pc = 0x1000 := by decide
/-- F11, F13. -/
theorem test_jp_v0 : (run 0xB300 (start [(0, 4)])).pc = 0x304 ∧ (run 0xBFFF (start [(0, 2)])).pc = 0x1001 := by decide

/-! ## ALU -/

theorem test_ld_byte : (run 0x6A7B State.reset).v = regs [(0xA, 0x7B)] := by decide
/-- A17. -/
theorem test_add_byte : (run 0x7001 (start [(0, 0xFF), (15, 5)])).v = regs [(15, 5)] := by decide
/-- A22. -/
theorem test_ld_reg : (run 0x8010 (start [(1, 0x33)])).v = regs [(0, 0x33), (1, 0x33)] := by decide
/-- A23. -/
theorem test_or : (run 0x8011 (start [(0, 0x0F), (1, 0xF0), (15, 9)])).v = regs [(0, 0xFF), (1, 0xF0), (15, 9)] := by decide
/-- R104's example. -/
theorem test_and : (run 0x8012 (start [(0, 0x3C), (1, 0x0F), (15, 9)])).v = regs [(0, 0x0C), (1, 0x0F), (15, 9)] := by decide
/-- R105's example. -/
theorem test_xor : (run 0x8013 (start [(0, 0x3C), (1, 0x0F), (15, 9)])).v = regs [(0, 0x33), (1, 0x0F), (15, 9)] := by decide
/-- L1-2, A3. -/
theorem test_add : (run 0x8014 (start [(0, 0xFF), (1, 1)])).v = regs [(1, 1), (15, 1)] ∧
    (run 0x80F4 (start [(0, 0xFF), (15, 1)])).v = regs [(15, 1)] := by decide
/-- A2, A4. -/
theorem test_add_vf : (run 0x8F14 (start [(15, 0x10), (1, 0x20)])).reg 15 = 0x30 ∧
    (run 0x8FF4 (start [(15, 0x90)])).reg 15 = 0x20 := by decide
/-- L1-3, A5. -/
theorem test_sub : (run 0x8015 (start [(0, 1), (1, 2), (15, 9)])).v = regs [(0, 0xFF), (1, 2)] ∧
    (run 0x8015 (start [(0, 5), (1, 5)])).v = regs [(1, 5), (15, 1)] := by decide
/-- A6, A7, A8. -/
theorem test_sub_vf : (run 0x8F15 (start [(15, 5), (1, 3)])).reg 15 = 0xFE ∧
    (run 0x80F5 (start [(0, 5), (15, 3)])).v = regs [(0, 4), (15, 1)] ∧ (run 0x8FF5 (start [(15, 7)])).reg 15 = 0 := by decide
/-- A9, A10. -/
theorem test_shr : (run 0x8206 (start [(2, 5)])).v = regs [(2, 2), (15, 1)] ∧ (run 0x8F06 (start [(15, 0xFF)])).reg 15 = 0 := by
  decide
/-- A11, and R109's example. -/
theorem test_subn : (run 0x8017 (start [(0, 2), (1, 1), (15, 9)])).v = regs [(0, 0xFF), (1, 1)] ∧
    (run 0x8017 (start [(0, 1), (1, 2)])).v = regs [(0, 1), (1, 2), (15, 1)] := by decide
/-- A12, A13. -/
theorem test_subn_vf : (run 0x8F17 (start [(15, 2), (1, 5)])).reg 15 = 4 ∧
    (run 0x80F7 (start [(0, 3), (15, 5)])).v = regs [(0, 0xFE), (15, 1)] := by decide
/-- A19, A15, A16: `y` is ignored. -/
theorem test_shl : (run 0x823E (start [(2, 0x81), (3, 0x55)])).v = regs [(2, 2), (3, 0x55), (15, 1)] ∧
    (run 0x8F0E (start [(15, 0x80)])).reg 15 = 2 ∧ (run 0x8F0E (start [(15, 0xC0)])).reg 15 = 2 := by decide
/-- A20, A21. -/
theorem test_rnd : (run 0xC30F { State.reset with inputs := [⟨0, 0, 0xA7⟩] }).reg 3 = 7 ∧
    (run 0xC300 { State.reset with inputs := [⟨0, 0, 0xA7⟩] }).reg 3 = 0 := by decide

/-! ## Index and memory -/

/-- M1. -/
theorem test_ld_i : (run 0xA300 State.reset).iReg = 0x300 := by decide
/-- M2, M3. -/
theorem test_add_i : (run 0xF11E { start [(1, 1), (15, 9)] with iReg := 0xFFF }).iReg = 0 ∧
    (run 0xF11E { start [(1, 1), (15, 9)] with iReg := 0xFFF }).reg 15 = 9 ∧
    (run 0xF11E { start [(1, 0x20)] with iReg := 0xFF0 }).iReg = 0x010 := by decide
/-- M4. -/
theorem test_ld_f : (run 0xF029 (start [(0, 0xF)])).iReg = 0x04B ∧ (run 0xF029 (start [(0, 0xA)])).iReg = 0x032 := by decide
/-- M5. -/
theorem test_ld_f_fault : (run 0xF029 (start [(0, 0x10)])).status = .fault ⟨.outOfBounds, 0x200, some 0xF029, some 0x10⟩ ∧
    (run 0xF029 (start [(0, 0x10)])).iReg = 0 := by decide
/-- M6, M7. -/
theorem test_ld_b : (run 0xFA33 { start [(0xA, 0x7B)] with iReg := 0x300 }).mem.bytesFrom 0x300 3 = [1, 2, 3] ∧
    (run 0xF033 { start [(0, 0xFF)] with iReg := 0xFFD }).mem.bytesFrom 0xFFD 3 = [2, 5, 5] := by decide
/-- M8. -/
theorem test_ld_b_fault : (run 0xF033 { start [(0, 0x7B)] with iReg := 0xFFE }).status =
    .fault ⟨.outOfBounds, 0x200, some 0xF033, some 0x1000⟩ ∧
    (run 0xF033 { start [(0, 0x7B)] with iReg := 0xFFE }).mem.bytesFrom 0xFFE 2 = [0, 0] := by decide
/-- M10, M15. -/
theorem test_store : (run 0xF155 { start [(0, 1), (1, 2)] with iReg := 0x300 }).mem.bytesFrom 0x300 3 = [1, 2, 0] ∧
    (run 0xF155 { start [(0, 1), (1, 2)] with iReg := 0x300 }).iReg = 0x300 ∧
    (run 0xF055 { start [(0, 0xAA)] with iReg := 0x010 }).mem.byteAt 0x010 = 0xAA := by decide
/-- M11, M12. -/
theorem test_store_top : (run 0xFF55 { start [(15, 0xAB)] with iReg := 0xFF0 }).mem.byteAt 0xFFF = 0xAB ∧
    (run 0xFF55 { start [(15, 0xAB)] with iReg := 0xFF1 }).status = .fault ⟨.outOfBounds, 0x200, some 0xFF55, some 0x1000⟩ := by
  decide
/-- M14. -/
theorem test_load : (run 0xF465 (start [(5, 7)])).v = regs [(0, 0xF0), (1, 0x90), (2, 0x90), (3, 0x90), (4, 0xF0), (5, 7)] := by
  decide
/-- M13. -/
theorem test_load_fault : (run 0xFF65 { start [(5, 7)] with iReg := 0xFF1 }).status =
    .fault ⟨.outOfBounds, 0x200, some 0xFF65, some 0x1000⟩ ∧
    (run 0xFF65 { start [(5, 7)] with iReg := 0xFF1 }).v = regs [(5, 7)] := by decide
theorem test_font : State.reset.mem.bytesFrom 0x4B 6 = [0xF0, 0x80, 0xF0, 0x80, 0x80, 0] := by decide
theorem test_memory_form : (Memory.put [(0x300, 1)] 0x300 0 = []) ∧ (Memory.put [] 0x010 0xAA).wf = true ∧
    Memory.wf [(0x300, 0)] = false ∧ Memory.wf [(0x301, 1), (0x300, 1)] = false := by decide

/-! ## Display -/

/-- G9. -/
theorem test_cls : lit (run 0x00E0 { State.reset with disp := Vector.replicate 32 (Vector.replicate 64 true) }).disp = 0 := by
  decide
/-- L1-4: the glyph of 0, drawn once and twice. -/
theorem test_drw_glyph : corner (run 0xD005 State.reset).disp 6 5 =
    [[true, true, true, true, false], [true, false, false, true, false], [true, false, false, true, false],
     [true, false, false, true, false], [true, true, true, true, false], [false, false, false, false, false]] ∧
    lit (run 0xD005 State.reset).disp = 14 ∧ (run 0xD005 State.reset).reg 15 = 0 ∧
    lit (run 0xD005 (run 0xD005 State.reset)).disp = 0 ∧ (run 0xD005 (run 0xD005 State.reset)).reg 15 = 1 := by decide

/-- The state of the vectors G1 to G8: the sprite at 0x300, its column in V1 and its row in V2. -/
def drawing (sprite : List Byte) (col row vf0 : Byte) : State :=
  { start [(1, col), (2, row), (15, vf0)] with iReg := 0x300, mem := Memory.putFrom [] 0x300 sprite }

/-- G1, G2, G4, G7, G8: columns wrap, rows clip and reduce, no rows, and bytes past the top of memory. -/
theorem test_drw_edges :
    (let d := (run 0xD121 (drawing [0xFF] 62 0 0)).disp
     lit d = 8 ∧ d.pixel 0 62 = true ∧ d.pixel 0 63 = true ∧ d.pixel 0 0 = true ∧ d.pixel 0 5 = true) ∧
    (let d := (run 0xD123 (drawing [0x80, 0x80, 0x80] 0 31 0)).disp
     lit d = 1 ∧ d.pixel 31 0 = true) ∧
    (run 0xD121 (drawing [0x80] 0 40 0)).disp.pixel 8 0 = true ∧
    (run 0xD120 (drawing [0xFF] 0 0 1)).reg 15 = 0 ∧ lit (run 0xD120 (drawing [0xFF] 0 0 1)).disp = 0 ∧
    (run 0xD123 { drawing [] 0 0 1 with iReg := 0xFFE }).status = .fault ⟨.outOfBounds, 0x200, some 0xD123, some 0x1000⟩ ∧
    (run 0xD123 { drawing [] 0 0 1 with iReg := 0xFFE }).reg 15 = 1 := by decide

/-! ## Keys and timers -/

/-- T1, T2. -/
theorem test_skp : (run 0xE19E { start [(1, 5)] with keys := 0x20 }).pc = 0x204 ∧ (run 0xE19E (start [(1, 5)])).pc = 0x202 := by
  decide
/-- T3. -/
theorem test_skp_fault : (run 0xE09E (start [(0, 0x10)])).status = .fault ⟨.outOfBounds, 0x200, some 0xE09E, some 0x10⟩ := by
  decide
/-- T2. -/
theorem test_sknp : (run 0xE1A1 (start [(1, 5)])).pc = 0x204 ∧
    (run 0xE1A1 { start [(1, 5)] with keys := 0x20 }).pc = 0x202 := by decide
/-- T6. -/
theorem test_ld_vx_dt : (run 0xF507 { State.reset with dt := 0x3C }).reg 5 = 0x3C := by decide
/-- T4. -/
theorem test_ld_k : (run 0xF20A { State.reset with keys := 0x208 }).reg 2 = 3 ∧
    (run 0xF20A { State.reset with keys := 0x208 }).pc = 0x202 := by decide
/-- T5. -/
theorem test_ld_k_waits : (run 0xF30A { State.reset with pc := 0x208 }).status = .waitKey 3 ∧
    (run 0xF30A { State.reset with pc := 0x208 }).pc = 0x208 ∧
    (again { run 0xF30A { State.reset with pc := 0x208 } with keys := 0x800 }).reg 3 = 0xB ∧
    (again { run 0xF30A { State.reset with pc := 0x208 } with keys := 0x800 }).pc = 0x20A := by decide
/-- T7. -/
theorem test_ld_dt : (run 0xF215 (start [(2, 5)])).dt = 5 ∧ (run 0xF215 (start [(2, 5)])).st = 0 := by decide
/-- T7. -/
theorem test_ld_st : (run 0xF218 (start [(2, 5)])).st = 5 ∧ (run 0xF218 (start [(2, 5)])).dt = 0 := by decide
/-- L1-6. -/
theorem test_tick : (ticks 5 { State.reset with dt := 5 }).dt = 0 ∧ (ticks 6 { State.reset with dt := 5 }).dt = 0 := by decide

/-! ## Witnesses: for each statement with hypotheses, a state and operands that meet them -/

/-- The last font byte, and the addresses beside the font image. -/
theorem witness_ResetSetsEveryPieceOfState : 79 < 80 ∧ fontBase + 80 ≤ 80 ∧ fontBase + 80 ≤ 0xFFF := by decide

/-- The three clauses at the boundaries of their ranges: offsets 0x1FF and 0x1000, one byte too many at 0x200 and at 0xFFF, and
the largest programs there. -/
theorem witness_LoadProgramCopiesOrFails :
    (0x1FF < 0x200 ∧ 0x1000 > 0xFFF) ∧
    (0x200 + (List.replicate 3585 (7 : Byte)).length > 0x1000 ∧ 0xFFF + ([7, 8] : List Byte).length > 0x1000) ∧
    (0x200 + (List.replicate 3584 (7 : Byte)).length ≤ 0x1000 ∧ 0xFFF + ([7] : List Byte).length ≤ 0x1000) := by
  simp only [List.length_replicate]; decide

/-- Bounds of the accessors on both sides: registers and keys 0xF and 0x10, memory, `PC` and `I` 0xFFF and 0x1000, rows 31 and
32, columns 63 and 64, SP 16 and 17, and the stack empty, full and between. -/
theorem witness_AccessorsAreBoundsChecked :
    (0xF ≤ 0xF ∧ 0x10 > 0xF) ∧ (0xFFF ≤ 0xFFF ∧ 0x1000 > 0xFFF) ∧ (¬(31 > 31 ∨ 63 > 63) ∧ (32 > 31 ∨ 0 > 63) ∧ (0 > 31 ∨ 64 > 63)) ∧
    (16 ≤ 16 ∧ 17 > 16) ∧ (∃ s : State, 15 < s.sp.val) ∧ (∃ s : State, s.sp.val = 15 ∧ 15 ≥ s.sp.val) ∧
    (∃ s : State, s.sp.val = 0 ∧ ¬ 0 < s.sp.val) ∧ (∃ s : State, s.sp.val = 16 ∧ 15 < s.sp.val) ∧
    (∃ s : State, s.sp.val < 16 ∧ 0 < s.sp.val) :=
  ⟨by decide, by decide, by decide, by decide, ⟨{ State.reset with sp := 16 }, by decide⟩,
    ⟨{ State.reset with sp := 15 }, by decide⟩, ⟨State.reset, by decide⟩, ⟨{ State.reset with sp := 16 }, by decide⟩,
    ⟨{ State.reset with sp := 15 }, by decide⟩⟩

/-- Records with and without a word and a value. -/
theorem witness_StatusRegisterShowsTheStatus :
    (∃ r : FaultRecord, r.word = none ∧ r.info = some 0x201) ∧ ∃ r : FaultRecord, r.word = some 0x00EE ∧ r.info = none :=
  ⟨⟨⟨.outOfBounds, 0x201, none, some 0x201⟩, by decide⟩, ⟨⟨.stackUnderflow, 0x200, some 0x00EE, none⟩, by decide⟩⟩

theorem witness_DecodeOfEncodeIsTheInstruction :
    (Instr.sys 0x0EF).wf = true ∧ (Instr.drw 15 0 15).wf = true ∧ (Instr.loadRegs 15).wf = true := by decide

theorem witness_EncodeOfDecodeIsTheWord : decodeWord 0x0000 = some (.sys 0) ∧ decodeWord 0xFF65 = some (.loadRegs 15) := by decide

theorem witness_IllegalWordsAreExactlyTheListed :
    (∃ s : State, s.status = .run ∧ s.pc.toNat % 2 = 0 ∧ s.pc.toNat ≤ 0xFFE ∧ s.mem.wordAt s.pc.toNat = 0x5001 ∧
      decodeWord 0x5001 = none) ∧ (0x0FFF#16).toNat / 4096 = 0 :=
  ⟨⟨{ State.reset with pc := 0xFFE, mem := Memory.putWord [] 0xFFE 0x5001 }, by decide⟩, by decide⟩

theorem witness_StepRunsTheDecodedInstruction :
    ∃ s : State, s.status = .run ∧ s.pc.toNat % 2 = 0 ∧ s.pc.toNat ≤ 0xFFE ∧
      decodeWord (s.mem.byteAt s.pc.toNat ++ s.mem.byteAt (s.pc.toNat + 1)) = some (.ldByte 0 0x42) :=
  ⟨{ State.reset with pc := 0xFFE, mem := Memory.putWord [] 0xFFE 0x6042 }, by decide⟩

theorem witness_StepReceivesTheHostsInputs :
    (∃ s : State, s.inputs = [⟨2, 0x8, 0x11⟩, ⟨0, 0, 0⟩]) ∧ ∃ s : State, s.inputs = [] :=
  ⟨⟨{ State.reset with inputs := [⟨2, 0x8, 0x11⟩, ⟨0, 0, 0⟩] }, rfl⟩, ⟨State.reset, rfl⟩⟩

theorem witness_FetchChecksThePc :
    (∃ s : State, s.status = .run ∧ s.pc.toNat % 2 = 1) ∧ (∃ s : State, s.status = .run ∧ s.pc.toNat + 1 > 0xFFF ∧ s.pc.toNat % 2 = 0) ∧
    ∃ s : State, s.status = .run ∧ s.pc.toNat % 2 = 0 ∧ s.pc.toNat + 1 = 0xFFF :=
  ⟨⟨{ State.reset with pc := 0x201 }, by decide⟩, ⟨{ State.reset with pc := 0x1000 }, by decide⟩,
    ⟨{ State.reset with pc := 0xFFE }, by decide⟩⟩

/-- A faulted state, and an operation that succeeds on it. -/
theorem witness_FaultStatusIsSticky :
    ∃ (s : State) (r : FaultRecord) (t : State), s.status = .fault r ∧ operate .tick s = .ok t :=
  ⟨{ State.reset with status := .fault ⟨.stackUnderflow, 0x200, some 0x00EE, none⟩ }, _, _, rfl, rfl⟩

/-- A wait without a key, and with keys 3 and 9, and with key 15 alone. -/
theorem witness_KeyWaitPollsTheKeys :
    (∃ s : State, s.status = .waitKey 3 ∧ ∀ k < 16, s.keys.getLsbD k = false) ∧
    (∃ s : State, s.status = .waitKey 15 ∧ s.keys.getLsbD 3 = true ∧ s.keys.getLsbD 9 = true ∧ ∀ j < 3, s.keys.getLsbD j = false) ∧
    ∃ s : State, s.status = .waitKey 0 ∧ s.keys.getLsbD 15 = true ∧ ∀ j < 15, s.keys.getLsbD j = false :=
  ⟨⟨{ State.reset with status := .waitKey 3 }, by decide⟩, ⟨{ State.reset with status := .waitKey 15, keys := 0x208 }, by decide⟩,
    ⟨{ State.reset with status := .waitKey 0, keys := 0x8000 }, by decide⟩⟩

/-- A step from RUN that faults, one that does not, and a step in WAITKEY. -/
theorem witness_StepFaultsExactlyWhenACheckFails :
    (∃ s t : State, s.status = .run ∧ engineStep s = .next t ∧ s.faultOf.isSome = true) ∧
    (∃ s t : State, s.status = .run ∧ engineStep s = .next t ∧ s.faultOf = none) ∧
    ∃ s t : State, s.status = .waitKey 3 ∧ engineStep s = .next t :=
  ⟨⟨{ State.reset with pc := 0x201 }, _, rfl, rfl, by decide⟩, ⟨State.reset, _, rfl, rfl, by decide⟩,
    ⟨{ State.reset with status := .waitKey 3 }, _, rfl, rfl⟩⟩

/-- A fault of the fetch check and a fault of an instruction. -/
theorem witness_FaultsArePrecise :
    (∃ (s t : State) (r : FaultRecord), s.status = .run ∧ engineStep s = .next t ∧ t.status = .fault r ∧ r.word = none) ∧
    ∃ (s t : State) (r : FaultRecord), s.status = .run ∧ engineStep s = .next t ∧ t.status = .fault r ∧ r.word = some 0x00EE :=
  ⟨⟨{ State.reset with pc := 0x1000 }, _, _, rfl, rfl, rfl, rfl⟩,
    ⟨{ State.reset with mem := Memory.putWord [] 0x200 0x00EE }, _, _, rfl, rfl, rfl, rfl⟩⟩

/-- Each row of the fault table at the first value that fails. -/
theorem witness_InstructionsTakeTheListedFaults :
    raises .ret State.reset = some (.stackUnderflow, none) ∧
    raises (.call 0x300) { State.reset with sp := 16 } = some (.stackOverflow, none) ∧
    raises (.ldF 0) (start [(0, 0x10)]) = some (.outOfBounds, some 0x10) ∧
    raises (.skp 0) (start [(0, 0x10)]) = some (.outOfBounds, some 0x10) ∧
    raises (.sknp 0) (start [(0, 0xFF)]) = some (.outOfBounds, some 0xFF) ∧
    raises (.drw 0 0 15) { State.reset with iReg := 0xFF2 } = some (.outOfBounds, some 0x1000) ∧
    raises (.ldB 0) { State.reset with iReg := 0xFFE } = some (.outOfBounds, some 0x1000) ∧
    raises (.storeRegs 15) { State.reset with iReg := 0xFF1 } = some (.outOfBounds, some 0x1000) ∧
    raises (.loadRegs 15) { State.reset with iReg := 0xFF1 } = some (.outOfBounds, some 0x1000) := by decide

/-- A state other than reset, at the bounds of the invariant, and a step from it. -/
theorem witness_StepKeepsTheInvariant :
    ∃ s t : State, s.Inv ∧ step s = .next t ∧ s.iReg.toNat = 0xFFF ∧ s.pc.toNat = 0x10FE ∧ s.sp.val = 16 :=
  ⟨{ State.reset with iReg := 0xFFF, pc := 0x10FE, sp := 16, mem := [(0x300, 1)] }, _,
    ⟨by decide, by decide, by decide, by decide, by decide⟩, rfl, by decide, by decide, by decide⟩

/-- A session of a reset, a load, a tick and a step. -/
theorem witness_SessionsKeepTheInvariant :
    ∃ (ops : List HostOp) (t : State), ops ≠ [] ∧ (∀ m, HostOp.reset m ∈ ops → m.wf = true) ∧
      session .constructed State.reset ops = some t :=
  ⟨[.reset [(0x300, 1)], .loadProgram [0x60, 0x42] 0x200, .tick, .step 0 0], _, by simp, by simp; decide, rfl⟩

/-- The halt `120A` of P1, under a tick and a step; a waiting run with a key pressed; a faulted run. -/
theorem witness_EndedRunStaysEnded :
    (∃ (s : State) (ops : List HostOp), s.ended = true ∧ (∀ op ∈ ops, op = .tick ∨ ∃ k r, op = .step k r) ∧ ops.length = 2) ∧
    (∃ s : State, s.status = .waitKey 2 ∧ s.keys ≠ 0) ∧ ∃ (s : State) (r : FaultRecord), s.status = .fault r :=
  ⟨⟨{ State.reset with pc := 0x20A, mem := Memory.putWord [] 0x20A 0x120A }, [.tick, .step 3 7], by decide, by simp, rfl⟩,
    ⟨{ State.reset with status := .waitKey 2, keys := 0x80 }, by decide⟩,
    ⟨{ State.reset with status := .fault ⟨.stackUnderflow, 0x200, some 0x00EE, none⟩ }, _, rfl⟩⟩

theorem witness_CanonicalMemoriesReadAlikeAreEqual :
    ∃ m m' : Memory, m.wf = true ∧ m'.wf = true ∧ (∀ a, m.byteAt a = m'.byteAt a) ∧ m.length = 1 :=
  ⟨[(0x300, 1)], Memory.put (Memory.put [] 0x300 2) 0x300 1, by decide, by decide,
    fun a => by rw [show Memory.put (Memory.put [] 0x300 2) 0x300 1 = [(0x300, 1)] by decide], rfl⟩

/-- LD [I],V1 stores the word 6042 over the bytes at `PC`. -/
theorem witness_StoredBytesAreFetchedNext :
    ∃ (s t : State), s.status = .run ∧ s.iReg.toNat + (1 : RegIdx).val ≤ 0xFFF ∧ exec (.storeRegs 1) s = .next t ∧
      t.pc.toNat = s.iReg.toNat + 0 ∧ t.pc.toNat % 2 = 0 ∧ decodeWord (s.reg 0 ++ s.reg 1) = some (.ldByte 0 0x42) :=
  ⟨{ start [(0, 0x60), (1, 0x42)] with pc := 0x202, iReg := 0x202 }, _, rfl, by decide, rfl, by decide, by decide, by decide⟩

theorem witness_SysIsANoOp : (0x1E0 : Addr) ≠ 0x0E0 ∧ (0x1E0 : Addr) ≠ 0x0EE ∧ (0 : Addr) ≠ 0x0E0 := by decide

theorem witness_RetPopsTheReturnAddress :
    (∃ s : State, 0 < s.sp.val ∧ s.sp.val = 16) ∧ ∃ s : State, s.sp.val = 0 :=
  ⟨⟨{ State.reset with sp := 16 }, by decide⟩, ⟨State.reset, by decide⟩⟩

theorem witness_CallPushesTheReturnAddress :
    (∃ s : State, s.sp.val < 16 ∧ s.sp.val = 15) ∧ ∃ s : State, s.sp.val = 16 :=
  ⟨⟨{ State.reset with sp := 15 }, by decide⟩, ⟨{ State.reset with sp := 16 }, by decide⟩⟩

theorem witness_CallThenRetReturns : ∃ s t : State, s.sp.val < 16 ∧ exec (.call 0x300) s = .next t :=
  ⟨{ State.reset with sp := 15 }, _, by decide, rfl⟩

theorem witness_GlyphIndexOrFault :
    (∃ s : State, (s.reg 0).toNat ≤ 0xF ∧ s.reg 0 = 0xF) ∧ ∃ s : State, (s.reg 0).toNat > 0xF ∧ s.reg 0 = 0x10 :=
  ⟨⟨start [(0, 0xF)], by decide⟩, ⟨start [(0, 0x10)], by decide⟩⟩

theorem witness_BcdStoresThreeDigits :
    (∃ s : State, s.iReg.toNat + 2 ≤ 0xFFF ∧ s.iReg = 0xFFD) ∧ ∃ s : State, s.iReg.toNat + 2 > 0xFFF ∧ s.iReg = 0xFFE :=
  ⟨⟨{ State.reset with iReg := 0xFFD }, by decide⟩, ⟨{ State.reset with iReg := 0xFFE }, by decide⟩⟩

theorem witness_StoreRegsCopiesTheBlock :
    (∃ s : State, s.iReg.toNat + (15 : RegIdx).val ≤ 0xFFF ∧ s.iReg = 0xFF0) ∧
    ∃ s : State, s.iReg.toNat + (15 : RegIdx).val > 0xFFF ∧ s.iReg = 0xFF1 :=
  ⟨⟨{ State.reset with iReg := 0xFF0 }, by decide⟩, ⟨{ State.reset with iReg := 0xFF1 }, by decide⟩⟩

theorem witness_LoadRegsCopiesTheBlock :
    (∃ s : State, s.iReg.toNat + (0 : RegIdx).val ≤ 0xFFF ∧ s.iReg = 0xFFF) ∧
    ∃ s : State, s.iReg.toNat + (1 : RegIdx).val > 0xFFF ∧ s.iReg = 0xFFF :=
  ⟨⟨{ State.reset with iReg := 0xFFF }, by decide⟩, ⟨{ State.reset with iReg := 0xFFF }, by decide⟩⟩

theorem witness_RndMasksTheRandomByte : (0x0F : Byte).getLsbD 4 = false ∧ (0x0F : Byte).getLsbD 7 = false := by decide

/-- No rows; fifteen rows up to 0xFFF; one byte too many; and sprites that do and do not meet a lit pixel. -/
theorem witness_DrwXorsTheSprite :
    ((0 : Nibble).toNat = 0) ∧ (∃ s : State, s.iReg.toNat + (15 : Nibble).toNat - 1 ≤ 0xFFF ∧ s.iReg = 0xFF1) ∧
    (∃ s : State, (15 : Nibble).toNat > 0 ∧ s.iReg.toNat + (15 : Nibble).toNat - 1 > 0xFFF ∧ s.iReg = 0xFF2) ∧
    spriteCovers [0x80] 0 31 31 0 = true ∧ spriteCovers [0x80, 0x80] 63 31 0 63 = false ∧ spriteCovers [0x01] 60 0 0 3 = true :=
  ⟨by decide, ⟨{ State.reset with iReg := 0xFF1 }, by decide⟩, ⟨{ State.reset with iReg := 0xFF2 }, by decide⟩,
    by decide, by decide, by decide⟩

theorem witness_DrawingTwiceRestoresTheDisplay :
    ∃ s t : State, raises (.drw 0 0 5) s = none ∧ exec (.drw 0 0 5) s = .next t ∧
      (t.reg 0).toNat % 64 = (s.reg 0).toNat % 64 ∧ (t.reg 0).toNat % 32 = (s.reg 0).toNat % 32 :=
  ⟨State.reset, _, by decide, rfl, by decide, by decide⟩

theorem witness_KeySkipsReadTheSnapshot :
    (∃ s : State, (s.reg 1).toNat ≤ 0xF ∧ s.reg 1 = 0xF) ∧ ∃ s : State, (s.reg 1).toNat > 0xF ∧ s.reg 1 = 0x10 :=
  ⟨⟨start [(1, 0xF)], by decide⟩, ⟨start [(1, 0x10)], by decide⟩⟩

theorem witness_KeyLoadCompletesOrWaits :
    (∃ s : State, s.keys.getLsbD 15 = true ∧ ∀ j < 15, s.keys.getLsbD j = false) ∧
    (∃ s : State, s.keys.getLsbD 0 = true ∧ ∀ j < 0, s.keys.getLsbD j = false) ∧
    ∃ s : State, ∀ k < 16, s.keys.getLsbD k = false :=
  ⟨⟨{ State.reset with keys := 0x8000 }, by decide⟩, ⟨{ State.reset with keys := 0xFFFF }, by decide⟩, ⟨State.reset, by decide⟩⟩

theorem witness_RegistersChangeOnlyWhereListed :
    (∃ s t : State, exec (.addReg 0 1) s = .next t ∧ (2 : RegIdx) ∉ destRegs (.addReg 0 1)) ∧
    ∃ s t : State, exec (.loadRegs 3) s = .next t ∧ (4 : RegIdx) ∉ destRegs (.loadRegs 3) :=
  ⟨⟨State.reset, _, rfl, by decide⟩, ⟨State.reset, _, rfl, by decide⟩⟩

theorem witness_PcAfterEachInstruction :
    (∃ s t : State, raises .ret s = none ∧ exec .ret s = .next t) ∧
    ∃ s t : State, raises (.skp 1) s = none ∧ exec (.skp 1) s = .next t :=
  ⟨⟨{ State.reset with sp := 1 }, _, by decide, rfl⟩, ⟨start [(1, 0xF)], _, by decide, rfl⟩⟩

theorem witness_StackMovesOnlyByCallAndRet :
    (∃ s t : State, exec (.jp 0x300) s = .next t ∧ writesStack (.jp 0x300) = false) ∧
    ∃ s t : State, exec (.call 0x300) s = .next t ∧ 14 < s.sp.val :=
  ⟨⟨State.reset, _, rfl, rfl⟩, ⟨{ State.reset with sp := 15 }, _, rfl, by decide⟩⟩

theorem witness_TimersChangeOnlyByTheirLoads :
    ∃ s t : State, exec (.ldStVx 2) s = .next t ∧ (∀ x, Instr.ldStVx 2 ≠ .ldDtVx x) ∧ exec (.ldDtVx 2) s = .next { s with dt := s.reg 2 } ∧
      ∀ x, Instr.ldDtVx 2 ≠ .ldStVx x :=
  ⟨start [(2, 5)], _, rfl, by simp, rfl, by simp⟩

theorem witness_IndexAndDisplayChangeOnlyWhereListed :
    ∃ s t u : State, exec .cls s = .next t ∧ writesI .cls = false ∧ exec (.ldI 0x300) s = .next u ∧ writesDisplay (.ldI 0x300) = false :=
  ⟨State.reset, _, _, rfl, rfl, rfl, rfl⟩

/-- A store of three bytes at 0x300, and the addresses beside it. -/
theorem witness_MemoryChangesOnlyWhereStored :
    ∃ s t : State, exec (.ldB 0) s = .next t ∧ 0x2FF < s.indexAddress ∧ s.indexAddress + storeCount (.ldB 0) ≤ 0x303 :=
  ⟨{ State.reset with iReg := 0x300 }, _, rfl, by decide, by decide⟩

theorem witness_StatusChangesOnlyByWaitsAndFaults :
    (∃ t : State, exec .cls State.reset = .next t) ∧ (∃ t : State, exec (.ldVxK 3) State.reset = .next t) ∧
    ∃ t : State, exec .ret State.reset = .next t := ⟨⟨_, rfl⟩, ⟨_, rfl⟩, ⟨_, rfl⟩⟩

theorem witness_EngineNeverChangesTheInputs : ∃ t : State, engineStep State.reset = .next t := ⟨_, rfl⟩

theorem witness_InputsAreReadOnlyWhereListed :
    ∃ t : State, exec (.addReg 0 1) State.reset = .next t ∧ (∀ x, Instr.addReg 0 1 ≠ .skp x ∧ Instr.addReg 0 1 ≠ .sknp x ∧
      Instr.addReg 0 1 ≠ .ldVxK x) ∧ (∀ x kk, Instr.addReg 0 1 ≠ .rnd x kk) ∧ ∀ x, Instr.addReg 0 1 ≠ .ldStVx x :=
  ⟨_, rfl, by simp, by simp, by simp⟩

end Sys2Proof.Tests
end

section
/-! PROOFS. The illegal words (30_encoding.md R69): the decoder answers `none` exactly on the listed ones, and a step that
fetches one faults (R76, R81). -/

namespace Sys2Proof

/-! ### The fields of a word as numbers (R63) -/

theorem toNat_fieldU (w : Word) : (fieldU w).toNat = w.toNat / 4096 := by
  have hw : w.toNat < 65536 := w.isLt
  simp only [fieldU, BitVec.extractLsb'_toNat, Nat.shiftRight_eq_div_pow]
  omega

theorem toNat_fieldN (w : Word) : (fieldN w).toNat = w.toNat % 16 := by
  simp [fieldN, BitVec.extractLsb'_toNat]

theorem toNat_fieldKK (w : Word) : (fieldKK w).toNat = w.toNat % 256 := by
  simp [fieldKK, BitVec.extractLsb'_toNat]

theorem fieldN_eq_zero_iff (w : Word) : fieldN w = 0 ↔ w.toNat % 16 = 0 := by
  rw [← toNat_fieldN, ← BitVec.toNat_inj]; rfl

/-! ### Where the classes with gaps have no instruction (R69) -/

theorem decodeClass8_eq_none_iff (x y : RegIdx) (n : Nibble) :
    decodeClass8 x y n = none ↔ 0x8 ≤ n.toNat ∧ n.toNat ≤ 0xD ∨ n.toNat = 0xF := by
  have hn : n.toNat < 16 := n.isLt
  unfold decodeClass8
  split
  case h_10 => simp only [imp_false, true_iff] at *; omega
  all_goals (simp only [reduceCtorEq, false_iff]; omega)

theorem decodeClassE_eq_none_iff (x : RegIdx) (kk : Byte) :
    decodeClassE x kk = none ↔ kk.toNat ≠ 0x9E ∧ kk.toNat ≠ 0xA1 := by
  unfold decodeClassE
  split
  case h_3 h9E hA1 => exact iff_of_true rfl ⟨h9E, hA1⟩
  all_goals (simp only [reduceCtorEq, false_iff]; omega)

theorem decodeClassF_eq_none_iff (x : RegIdx) (kk : Byte) :
    decodeClassF x kk = none ↔
      kk.toNat ≠ 0x07 ∧ kk.toNat ≠ 0x0A ∧ kk.toNat ≠ 0x15 ∧ kk.toNat ≠ 0x18 ∧ kk.toNat ≠ 0x1E ∧ kk.toNat ≠ 0x29 ∧
        kk.toNat ≠ 0x33 ∧ kk.toNat ≠ 0x55 ∧ kk.toNat ≠ 0x65 := by
  unfold decodeClassF
  split
  case h_10 h07 h0A h15 h18 h1E h29 h33 h55 h65 =>
    exact iff_of_true rfl ⟨h07, h0A, h15, h18, h1E, h29, h33, h55, h65⟩
  all_goals (simp only [reduceCtorEq, false_iff]; omega)

/-- A word has no instruction exactly where its class has a gap: in the classes 0x5, 0x8, 0x9, 0xE and 0xF (R66, R69). -/
theorem decodeWord_eq_none_iff_class (w : Word) :
    decodeWord w = none ↔
      ((fieldU w).toNat = 0x5 ∧ fieldN w ≠ 0) ∨
      ((fieldU w).toNat = 0x8 ∧ decodeClass8 (fieldX w) (fieldY w) (fieldN w) = none) ∨
      ((fieldU w).toNat = 0x9 ∧ fieldN w ≠ 0) ∨
      ((fieldU w).toNat = 0xE ∧ decodeClassE (fieldX w) (fieldKK w) = none) ∨
      ((fieldU w).toNat = 0xF ∧ decodeClassF (fieldX w) (fieldKK w) = none) := by
  have hu : (fieldU w).toNat < 16 := (fieldU w).isLt
  unfold decodeWord
  split
  case h_17 => simp only [imp_false] at *; omega
  all_goals simp [*]

theorem decodeWord_ne_none_of_class0 {w : Word} (h : w.toNat / 4096 = 0) : decodeWord w ≠ none := by
  rw [← toNat_fieldU] at h
  simp [decodeWord, h]

namespace Machine

/-- A step in RUN that fetches a word with no instruction: the pre-step state takes the fault UnknownOpcode (R76, R81). -/
theorem engineStep_of_decodeWord_eq_none {s : State} (hrun : s.status = .run) (hok : fetchOk s.pc = true)
    (hnone : decodeWord (s.mem.wordAt s.pc.toNat) = none) :
    engineStep s =
      .next (s.takeFault .unknownOpcode (some (s.mem.wordAt s.pc.toNat)) (some (s.mem.wordAt s.pc.toNat))) := by
  have hcycle : engineStep s = runCycle s := by simp only [engineStep, hrun]
  rw [hcycle]
  obtain ⟨hbad, -⟩ | ⟨-, -, hfault⟩ | ⟨i, -, hsome, -⟩ := runCycle_cases s
  · simp [hok] at hbad
  · exact hfault
  · simp [hnone] at hsome

/-- Settles O9: the classes with gaps are read off the decoder one by one, and the step's fault is the cycle's case of an
unknown word. -/
theorem illegalWordsAreExactlyTheListed : Obligations.IllegalWordsAreExactlyTheListed := by
  unfold Obligations.IllegalWordsAreExactlyTheListed
  refine ⟨fun w => ?listed, fun w => decodeWord_ne_none_of_class0, fun s w hrun heven htop hw hnone => ?fault⟩
  case listed =>
    simp only [decodeWord_eq_none_iff_class, decodeClass8_eq_none_iff, decodeClassE_eq_none_iff, decodeClassF_eq_none_iff,
      toNat_fieldU, toNat_fieldN, toNat_fieldKK, fieldN_eq_zero_iff, ne_eq]
  case fault =>
    subst hw
    exact engineStep_of_decodeWord_eq_none hrun ((fetchOk_iff s.pc).2 ⟨heven, htop⟩) hnone

end Machine

end Sys2Proof
end

section
/-! PROOFS. Control flow (41_flow.md R88 to R95): the words of the opcode table's patterns decode to SYS, RET, JP, CALL and
the register skips, and each of these moves `PC` and the return stack as its rule says, or takes its stack fault. -/

namespace Sys2Proof

/-! ### A pattern written as a number is the format with the same fields (R63, R64) -/

open Machine (wordN wordK wordXY)

/-- The number a concatenation stands for. -/
theorem toNat_append_eq_add {m n : Nat} (a : BitVec m) (b : BitVec n) : (a ++ b).toNat = a.toNat * 2 ^ n + b.toNat := by
  rw [BitVec.toNat_append, ← Nat.shiftLeft_add_eq_or_of_lt b.isLt, Nat.shiftLeft_eq]

theorem wordN_eq_encNnn (u : Nat) (nnn : Addr) : wordN u nnn = encNnn (BitVec.ofNat 4 u) nnn := by
  have hn : nnn.toNat < 2 ^ 12 := nnn.isLt
  apply BitVec.eq_of_toNat_eq
  rw [wordN, encNnn, toNat_append_eq_add, BitVec.toNat_ofNat, BitVec.toNat_ofNat]
  omega

theorem wordK_eq_encXkk (u : Nat) (x : RegIdx) (kk : Byte) : wordK u x kk = encXkk (BitVec.ofNat 4 u) x kk := by
  have hlow : (x.toNibble ++ kk).toNat = x.val * 256 + kk.toNat := toNat_append_eq_add x.toNibble kk
  calc wordK u x kk
    _ = wordN u (x.toNibble ++ kk) := by rw [wordK, wordN, hlow, Nat.add_assoc]
    _ = encXkk (BitVec.ofNat 4 u) x kk := wordN_eq_encNnn u _

theorem wordXY_eq_encXyn (u : Nat) (x y : RegIdx) (n : Nibble) :
    wordXY u x y n.toNat = encXyn (BitVec.ofNat 4 u) x y n := by
  have hlow : (y.toNibble ++ n).toNat = y.val * 16 + n.toNat := toNat_append_eq_add y.toNibble n
  calc wordXY u x y n.toNat
    _ = wordK u x (y.toNibble ++ n) := by rw [wordXY, wordK, hlow, Nat.add_assoc _ (y.val * 16)]
    _ = encXyn (BitVec.ofNat 4 u) x y n := wordK_eq_encXkk u x _

/-! ### The flow words decode to their instructions (R66, R67) -/

theorem decodeClass0_of_ne {nnn : Addr} (hcls : nnn ≠ 0x0E0) (hret : nnn ≠ 0x0EE) : decodeClass0 nnn = .sys nnn :=
  (if_neg hcls).trans (if_neg hret)

theorem decodeWord_wordN_0 (nnn : Addr) : decodeWord (wordN 0x0 nnn) = some (decodeClass0 nnn) := by
  simp [wordN_eq_encNnn, decodeWord]

theorem decodeWord_wordN_1 (nnn : Addr) : decodeWord (wordN 0x1 nnn) = some (.jp nnn) := by
  simp [wordN_eq_encNnn, decodeWord]

theorem decodeWord_wordN_2 (nnn : Addr) : decodeWord (wordN 0x2 nnn) = some (.call nnn) := by
  simp [wordN_eq_encNnn, decodeWord]

theorem decodeWord_wordK_3 (x : RegIdx) (kk : Byte) : decodeWord (wordK 0x3 x kk) = some (.seByte x kk) := by
  simp [wordK_eq_encXkk, decodeWord]

theorem decodeWord_wordK_4 (x : RegIdx) (kk : Byte) : decodeWord (wordK 0x4 x kk) = some (.sneByte x kk) := by
  simp [wordK_eq_encXkk, decodeWord]

theorem decodeWord_wordXY_5 (x y : RegIdx) : decodeWord (wordXY 0x5 x y 0) = some (.seReg x y) := by
  have hw : wordXY 0x5 x y 0 = encXyn 0x5 x y 0 := wordXY_eq_encXyn 0x5 x y 0
  simp [hw, decodeWord]

theorem decodeWord_wordXY_9 (x y : RegIdx) : decodeWord (wordXY 0x9 x y 0) = some (.sneReg x y) := by
  have hw : wordXY 0x9 x y 0 = encXyn 0x9 x y 0 := wordXY_eq_encXyn 0x9 x y 0
  simp [hw, decodeWord]

namespace Machine

/-! ### What the shared operations of the flow instructions give -/

theorem addrWord_eq_ofNat (nnn : Addr) : addrWord nnn = BitVec.ofNat 16 nnn.toNat := (BitVec.ofNat_toNat 16 nnn).symm

/-- The fault an instruction raises leaves the state the statements describe (R81, R132). -/
theorem State.raise_eq_faulted (s : State) (i : Instr) (k : Fault) (info : Option Word) :
    s.raise i k info = faulted s i k info := rfl

theorem State.skipIf_eq (s : State) (c : Bool) : s.skipIf c = { s with pc := if c then s.pc + 2 else s.pc } := by
  cases c <;> rfl

/-! ### RET and CALL, each in its two cases (R89, R91) -/

theorem exec_ret_of_pos {s : State} (h : 0 < s.sp.val) :
    exec .ret s = .next { s with pc := s.entry (s.sp.val - 1), sp := ⟨s.sp.val - 1, by omega⟩ } := by
  show execRet s = _
  rw [execRet, State.pop_of_pos h, State.entry_of_lt s (by omega)]
  rfl

theorem exec_ret_of_empty {s : State} (h : s.sp.val = 0) :
    exec .ret s = .next (faulted s .ret .stackUnderflow none) := by
  show execRet s = _
  rw [execRet, State.pop_eq_none.2 h, State.raise_eq_faulted]

theorem exec_call_of_lt (nnn : Addr) {s : State} (h : s.sp.val < 16) :
    exec (.call nnn) s =
      .next { s with pc := addrWord nnn, sp := ⟨s.sp.val + 1, by omega⟩, stack := s.stack.set s.sp.val s.pc } := by
  show execCall nnn s = _
  rw [execCall, State.push_of_lt h]
  rfl

theorem exec_call_of_full (nnn : Addr) {s : State} (h : s.sp.val = 16) :
    exec (.call nnn) s = .next (faulted s (.call nnn) .stackOverflow none) := by
  show execCall nnn s = _
  rw [execCall, State.push_eq_none.2 h, State.raise_eq_faulted]

/-! ### The register skips (R92 to R95) -/

theorem exec_seByte (x : RegIdx) (kk : Byte) (s : State) :
    exec (.seByte x kk) s = .next { s with pc := if s.reg x = kk then s.pc + 2 else s.pc } := by
  show Host.Outcome.next (s.skipIf (s.reg x == kk)) = _
  simp only [State.skipIf_eq, beq_iff_eq]

theorem exec_sneByte (x : RegIdx) (kk : Byte) (s : State) :
    exec (.sneByte x kk) s = .next { s with pc := if s.reg x = kk then s.pc else s.pc + 2 } := by
  show Host.Outcome.next (s.skipIf (s.reg x != kk)) = _
  simp only [State.skipIf_eq, bne_iff_ne, ne_eq, ite_not]

/-- SE Vx, Vy is SE Vx, byte with the value of `V[y]` (R94). -/
theorem exec_seReg (x y : RegIdx) (s : State) : exec (.seReg x y) s = exec (.seByte x (s.reg y)) s := rfl

/-- SNE Vx, Vy is SNE Vx, byte with the value of `V[y]` (R95). -/
theorem exec_sneReg (x y : RegIdx) (s : State) : exec (.sneReg x y) s = exec (.sneByte x (s.reg y)) s := rfl

/-! ### The obligations -/

/-- Settles O27: class 0 decodes to SYS off the two excluded addresses, and the meaning of SYS is the identity. -/
theorem sysIsANoOp : Obligations.SysIsANoOp := by
  unfold Obligations.SysIsANoOp
  refine ⟨fun nnn hcls hret => ?_, fun nnn s => rfl⟩
  rw [decodeWord_wordN_0, decodeClass0_of_ne hcls hret]

/-- Settles O28, by the two cases of the pop. -/
theorem retPopsTheReturnAddress : Obligations.RetPopsTheReturnAddress := by
  unfold Obligations.RetPopsTheReturnAddress
  refine ⟨decodeWord_wordN_0 0x0EE, fun s => ⟨fun hpos => ?_, exec_ret_of_empty⟩⟩
  exact ⟨_, exec_ret_of_pos hpos, rfl, rfl, Nat.sub_add_cancel hpos⟩

/-- Settles O29: JP writes its address field, widened to 16 bits, into `PC`. -/
theorem jpSetsThePc : Obligations.JpSetsThePc := by
  unfold Obligations.JpSetsThePc
  refine ⟨decodeWord_wordN_1, fun nnn s => ?_⟩
  rw [← addrWord_eq_ofNat]
  rfl

/-- Settles O30, by the two cases of the push; the entries are those of the one stack write. -/
theorem callPushesTheReturnAddress : Obligations.CallPushesTheReturnAddress := by
  unfold Obligations.CallPushesTheReturnAddress
  refine ⟨decodeWord_wordN_2, fun nnn s => ⟨fun hlt => ?_, exec_call_of_full nnn⟩⟩
  exact ⟨_, exec_call_of_lt nnn hlt, rfl, addrWord_eq_ofNat nnn, rfl, State.entry_set s _ hlt s.pc rfl⟩

/-- Settles O32: the skips on two registers are the skips on a byte, taken at the value of `V[y]`. -/
theorem skipsCompareRegisters : Obligations.SkipsCompareRegisters := by
  unfold Obligations.SkipsCompareRegisters
  refine ⟨decodeWord_wordK_3, decodeWord_wordK_4, decodeWord_wordXY_5, decodeWord_wordXY_9, fun x y kk s => ?_⟩
  refine ⟨exec_seByte x kk s, exec_sneByte x kk s, ?_, ?_⟩
  · rw [exec_seReg, exec_seByte]
  · rw [exec_sneReg, exec_sneByte]

end Machine

end Sys2Proof
end

section
/-! PROOFS. Register loads, ALU and random (42_alu.md R97 to R106, R111): the words of the opcode table's patterns decode to
the loads, the adds, the bitwise instructions and RND, and each of these writes `V[x]`, ADD Vx, Vy after its carry. -/

namespace Sys2Proof

open Machine (wordK wordXY)

/-! ### The ALU words decode to their instructions (R66) -/

theorem decodeWord_wordK_6 (x : RegIdx) (kk : Byte) : decodeWord (wordK 0x6 x kk) = some (.ldByte x kk) := by
  simp [wordK_eq_encXkk, decodeWord]

theorem decodeWord_wordK_7 (x : RegIdx) (kk : Byte) : decodeWord (wordK 0x7 x kk) = some (.addByte x kk) := by
  simp [wordK_eq_encXkk, decodeWord]

theorem decodeWord_wordK_C (x : RegIdx) (kk : Byte) : decodeWord (wordK 0xC x kk) = some (.rnd x kk) := by
  simp [wordK_eq_encXkk, decodeWord]

/-- Class 0x8 decodes by its function nibble. -/
theorem decodeWord_wordXY_8 (x y : RegIdx) (n : Nibble) :
    decodeWord (wordXY 0x8 x y n.toNat) = decodeClass8 x y n := by
  simp [wordXY_eq_encXyn, decodeWord]

namespace Machine

/-! ### Sums of bytes, and VF (R97, R98) -/

/-- The sum of two bytes is their exact sum, reduced modulo 256 (R97). -/
theorem byte_add_eq_ofNat_mod (a b : Byte) : a + b = BitVec.ofNat 8 ((a.toNat + b.toNat) % 256) := by
  apply BitVec.eq_of_toNat_eq
  rw [BitVec.toNat_add, BitVec.toNat_ofNat, Nat.mod_mod]

theorem toNat_carryFlag (sum : Nat) : (carryFlag sum).toNat = if sum > 255 then 1 else 0 := by
  by_cases h : sum > 255 <;> simp [carryFlag, flagByte, h]

/-- The two writes of a flag instruction: the result comes last and so hides the flag when `x` is F (R98). -/
theorem State.reg_setReg_setReg_vf (s : State) (x : RegIdx) (flag result : Byte) (r : RegIdx) :
    ((s.setReg vf flag).setReg x result).reg r = if r = x then result else if r = 15 then flag else s.reg r := by
  simp only [State.reg_setReg, eq_comm]

/-! ### The obligations -/

/-- Settles O34: the two instructions write `V[x]` once; the byte sum is the exact sum modulo 256. -/
theorem immediatesLoadAndAdd : Obligations.ImmediatesLoadAndAdd := by
  unfold Obligations.ImmediatesLoadAndAdd
  refine ⟨decodeWord_wordK_6, decodeWord_wordK_7, fun x kk s => ⟨rfl, ?_⟩⟩
  rw [← byte_add_eq_ofNat_mod]
  rfl

/-- Settles O35: the function nibbles 0 to 3 select the four instructions, and each meaning is one write of `V[x]`. -/
theorem moveAndBitwiseWriteVx : Obligations.MoveAndBitwiseWriteVx := by
  unfold Obligations.MoveAndBitwiseWriteVx
  refine ⟨fun x y => decodeWord_wordXY_8 x y 0x0, fun x y => decodeWord_wordXY_8 x y 0x1,
    fun x y => decodeWord_wordXY_8 x y 0x2, fun x y => decodeWord_wordXY_8 x y 0x3, fun x y s => ?_⟩
  exact ⟨rfl, rfl, rfl, rfl⟩

/-- Settles O36: the sum is taken before either write, and each register is read back through the two writes. -/
theorem addSetsTheCarry : Obligations.AddSetsTheCarry := by
  unfold Obligations.AddSetsTheCarry
  refine ⟨fun x y => decodeWord_wordXY_8 x y 0x4, fun x y s => ⟨_, rfl, rfl, fun r => ?_⟩⟩
  rw [State.reg_setReg_setReg_vf, apply_ite BitVec.toNat, apply_ite BitVec.toNat, BitVec.toNat_ofNat, toNat_carryFlag]

/-- Settles O40: RND is one write of `V[x]`, and a bit that is 0 in the mask is 0 in the conjunction. -/
theorem rndMasksTheRandomByte : Obligations.RndMasksTheRandomByte := by
  unfold Obligations.RndMasksTheRandomByte
  refine ⟨decodeWord_wordK_C, fun x kk s => ⟨rfl, fun j hj => ?_⟩⟩
  rw [BitVec.getLsbD_and, hj, Bool.and_false]

end Machine

end Sys2Proof
end

section
/-! PROOFS. Index (43_index_memory.md R112, R113): the words of the opcode table's patterns decode to LD I and ADD I, and
each of these is one write of `I`. -/

namespace Sys2Proof

open Machine (wordN wordK)

/-! ### The index words decode to their instructions (R66) -/

theorem decodeWord_wordN_A (nnn : Addr) : decodeWord (wordN 0xA nnn) = some (.ldI nnn) := by
  simp [wordN_eq_encNnn, decodeWord]

/-- Class 0xF decodes by its function byte. -/
theorem decodeWord_wordK_F (x : RegIdx) (kk : Byte) : decodeWord (wordK 0xF x kk) = decodeClassF x kk := by
  simp [wordK_eq_encXkk, decodeWord]

namespace Machine

/-- The index sum is the exact sum, reduced modulo 4096 (R113). -/
theorem toNat_indexSum (a : Word) (b : Byte) : (indexSum a b).toNat = (a.toNat + b.toNat) % 4096 := by
  rw [indexSum, BitVec.toNat_ofNat]
  omega

/-! ### The obligations -/

/-- Settles O41: LD I and ADD I are one write of `I`, the address field widened to 16 bits and the index sum. -/
theorem indexLoadsAndAdds : Obligations.IndexLoadsAndAdds := by
  unfold Obligations.IndexLoadsAndAdds
  refine ⟨decodeWord_wordN_A, fun x => decodeWord_wordK_F x 0x1E, fun nnn s => ?_, fun x s => ?_⟩
  · rw [← addrWord_eq_ofNat]
    rfl
  · exact ⟨s.setI (indexSum s.iReg (s.reg x)), rfl, rfl, toNat_indexSum s.iReg (s.reg x)⟩

end Machine

end Sys2Proof
end

section
/-! PROOFS. Display (44_display.md R121): the word 0x00E0 decodes to CLS, and CLS is one write of the pixel buffer. -/

namespace Sys2Proof.Machine

/-- CLS replaces the pixel buffer by the clear one and writes nothing else (R121). -/
theorem exec_cls (s : State) : exec .cls s = .next (s.setDisp Display.clear) := rfl

/-- Settles O46: 0x00E0 is the class-0 word of CLS, and every pixel of the buffer that CLS writes is off. -/
theorem clsClearsTheDisplay : Obligations.ClsClearsTheDisplay := by
  unfold Obligations.ClsClearsTheDisplay
  exact ⟨decodeWord_wordN_0 0x0E0, fun s => ⟨s.setDisp Display.clear, exec_cls s, rfl, Display.pixel_clear⟩⟩

end Sys2Proof.Machine
end

section
/-! PROOFS. Timers (45_timers_input.md R125, R127, R128): the words of the opcode table's patterns decode to LD Vx, DT,
LD DT, Vx and LD ST, Vx, and each of these is one write of the state. -/

namespace Sys2Proof.Machine

/-- LD Vx, DT is one write of `V[x]`; the timer it reads keeps its value (R125). -/
theorem exec_ldVxDt (x : RegIdx) (s : State) : exec (.ldVxDt x) s = .next (s.setReg x s.dt) := rfl

/-- LD DT, Vx is one write of the delay timer (R127). -/
theorem exec_ldDtVx (x : RegIdx) (s : State) : exec (.ldDtVx x) s = .next (s.setDt (s.reg x)) := rfl

/-- LD ST, Vx is one write of the sound timer (R128). -/
theorem exec_ldStVx (x : RegIdx) (s : State) : exec (.ldStVx x) s = .next (s.setSt (s.reg x)) := rfl

/-- Settles O50: the function bytes 0x07, 0x15 and 0x18 select the three instructions, and each meaning is one write. -/
theorem timersReadAndWrite : Obligations.TimersReadAndWrite := by
  unfold Obligations.TimersReadAndWrite
  refine ⟨fun x => decodeWord_wordK_F x 0x07, fun x => decodeWord_wordK_F x 0x15,
    fun x => decodeWord_wordK_F x 0x18, fun x s => ?_⟩
  exact ⟨exec_ldVxDt x s, exec_ldDtVx x s, exec_ldStVx x s⟩

end Sys2Proof.Machine
end

section
/-! PROOFS. The round trip of the encoding (30_encoding.md R62 to R68): decode after encode is the identity on well-formed
instructions, and every word that decodes is the encoding of its instruction. -/

namespace Sys2Proof

/-! ### A word is each of its formats, filled with its own fields (R63, R64) -/

theorem encNnn_fields (w : Word) : encNnn (fieldU w) (fieldNNN w) = w := append_extract (m := 4) (n := 12) w

/-- The address field is the register field and the byte field. -/
theorem fieldX_append_fieldKK (w : Word) : (fieldX w).toNibble ++ fieldKK w = fieldNNN w := by
  have hx : (fieldNNN w).extractLsb' 8 4 = w.extractLsb' 8 4 := by
    rw [fieldNNN, BitVec.extractLsb'_extractLsb'_of_le (by omega)]
  have hkk : (fieldNNN w).extractLsb' 0 8 = fieldKK w := by
    rw [fieldNNN, BitVec.extractLsb'_extractLsb'_of_le (by omega), fieldKK]
  have h := append_extract (m := 4) (n := 8) (fieldNNN w)
  rw [hx, hkk] at h
  exact h

/-- The byte field is the second register field and the low nibble. -/
theorem fieldY_append_fieldN (w : Word) : (fieldY w).toNibble ++ fieldN w = fieldKK w := by
  have hy : (fieldKK w).extractLsb' 4 4 = w.extractLsb' 4 4 := by
    rw [fieldKK, BitVec.extractLsb'_extractLsb'_of_le (by omega)]
  have hn : (fieldKK w).extractLsb' 0 4 = fieldN w := by
    rw [fieldKK, BitVec.extractLsb'_extractLsb'_of_le (by omega), fieldN]
  have h := append_extract (m := 4) (n := 4) (fieldKK w)
  rw [hy, hn] at h
  exact h

theorem encXkk_fields (w : Word) : encXkk (fieldU w) (fieldX w) (fieldKK w) = w := by
  rw [encXkk, fieldX_append_fieldKK]
  exact encNnn_fields w

theorem encXyn_fields (w : Word) : encXyn (fieldU w) (fieldX w) (fieldY w) (fieldN w) = w := by
  rw [encXyn, fieldY_append_fieldN]
  exact encXkk_fields w

/-! ### Decode after encode -/

/-- The decoder reads the encoding of a well-formed instruction back; SYS alone needs well-formedness (R67). -/
theorem decodeWord_encode {i : Instr} (h : i.wf = true) : decodeWord (encode i) = some i := by
  cases i with
  | cls | ret => rfl
  | sys nnn =>
    simp only [Instr.wf, sysExcludes, Bool.not_eq_true', Bool.or_eq_false_iff, beq_eq_false_iff_ne] at h
    simp [encode, decodeWord, decodeClass0_of_ne h.1 h.2]
  | jp | call | ldI | jpV0 => simp [encode, decodeWord]
  | seByte | sneByte | ldByte | addByte | rnd => simp [encode, decodeWord]
  | seReg | sneReg | drw => simp [encode, decodeWord]
  | ldReg | orReg | andReg | xorReg | addReg | subReg | shr | subn | shl => simp [encode, decodeWord, decodeClass8]
  | skp | sknp => simp [encode, decodeWord, decodeClassE]
  | ldVxDt | ldVxK | ldDtVx | ldStVx | addI | ldF | ldB | storeRegs | loadRegs =>
    simp [encode, decodeWord, decodeClassF]

/-- Settles O7: the two bytes of an encoding are decoded as its word, which decodes to the instruction. -/
theorem decodeOfEncodeIsTheInstruction : Obligations.DecodeOfEncodeIsTheInstruction := by
  unfold Obligations.DecodeOfEncodeIsTheInstruction
  intro i rest h
  show decode (highByte (encode i) :: lowByte (encode i) :: rest) = _
  rw [decode_bytes, decodeWord_encode h]

/-! ### Encode after decode, class by class -/

/-- `i` is well-formed and its word is `w`. -/
def Encodes (i : Instr) (w : Word) : Prop := i.wf = true ∧ encode i = w

theorem Encodes.trans {i : Instr} {w w' : Word} (h : Encodes i w) (hw : w = w') : Encodes i w' := hw ▸ h

/-- A field is the literal whose number it has. -/
theorem eq_ofNat_of_toNat {k c : Nat} {b : BitVec k} (h : b.toNat = c) : b = BitVec.ofNat k c := by
  rw [← h, BitVec.ofNat_toNat, BitVec.setWidth_eq]

theorem decodeClass0_encodes (nnn : Addr) : Encodes (decodeClass0 nnn) (encNnn 0x0 nnn) := by
  unfold decodeClass0
  split
  · next h => subst h; exact ⟨rfl, rfl⟩
  · split
    · next h => subst h; exact ⟨rfl, rfl⟩
    · next hcls hret => exact ⟨by simp [Instr.wf, sysExcludes, hcls, hret], rfl⟩

theorem decodeClass8_encodes {x y : RegIdx} {n : Nibble} {i : Instr} (h : decodeClass8 x y n = some i) :
    Encodes i (encXyn 0x8 x y n) := by
  unfold decodeClass8 at h
  split at h <;> cases h
  all_goals rename_i hn; rw [eq_ofNat_of_toNat hn]; exact ⟨rfl, rfl⟩

theorem decodeClassE_encodes {x : RegIdx} {kk : Byte} {i : Instr} (h : decodeClassE x kk = some i) :
    Encodes i (encXkk 0xE x kk) := by
  unfold decodeClassE at h
  split at h <;> cases h
  all_goals rename_i hkk; rw [eq_ofNat_of_toNat hkk]; exact ⟨rfl, rfl⟩

theorem decodeClassF_encodes {x : RegIdx} {kk : Byte} {i : Instr} (h : decodeClassF x kk = some i) :
    Encodes i (encXkk 0xF x kk) := by
  unfold decodeClassF at h
  split at h <;> cases h
  all_goals rename_i hkk; rw [eq_ofNat_of_toNat hkk]; exact ⟨rfl, rfl⟩

theorem decodeWord_encodes {w : Word} {i : Instr} (h : decodeWord w = some i) : Encodes i w := by
  have hnnn := encNnn_fields w
  have hxkk := encXkk_fields w
  have hxyn := encXyn_fields w
  unfold decodeWord at h
  split at h
  case h_17 => cases h
  all_goals rename_i hu; rw [eq_ofNat_of_toNat hu] at hnnn hxkk hxyn
  case h_1 => cases h; exact (decodeClass0_encodes _).trans hnnn
  case h_2 | h_3 | h_11 | h_12 => cases h; exact ⟨rfl, hnnn⟩
  case h_4 | h_5 | h_7 | h_8 | h_13 => cases h; exact ⟨rfl, hxkk⟩
  case h_6 | h_10 =>
    split at h
    · next hn => cases h; rw [hn] at hxyn; exact ⟨rfl, hxyn⟩
    · cases h
  case h_9 => exact (decodeClass8_encodes h).trans hxyn
  case h_14 => cases h; exact ⟨rfl, hxyn⟩
  case h_15 => exact (decodeClassE_encodes h).trans hxkk
  case h_16 => exact (decodeClassF_encodes h).trans hxkk

/-- Settles O8, class by class of the decoder. -/
theorem encodeOfDecodeIsTheWord : Obligations.EncodeOfDecodeIsTheWord := by
  unfold Obligations.EncodeOfDecodeIsTheWord
  exact fun w i h => decodeWord_encodes h

/-- Settles O6: each word is evaluated by the decoder. -/
theorem exampleWordsDecode : Obligations.ExampleWordsDecode := by
  unfold Obligations.ExampleWordsDecode
  decide

end Sys2Proof
end

section
/-! PROOFS. What every instruction does, said once: it takes the fault that the table of faults lists for it, and where the
table lists none it completes in one explicit state (41_flow.md to 45_timers_input.md, 60_exceptions.md R131). -/

namespace Sys2Proof.Machine

/-! ### The checks of the table are the checks of the meanings (R131) -/

theorem hexDigit_of_le {b : Byte} (h : b.toNat ≤ 0xF) : hexDigit b = some b.toNat := if_neg (by omega)

theorem hexDigit_of_gt {b : Byte} (h : b.toNat > 0xF) : hexDigit b = none := if_pos h

theorem byteWord_eq_ofNat (b : Byte) : byteWord b = BitVec.ofNat 16 b.toNat := (BitVec.ofNat_toNat 16 b).symm

section
variable (x y : RegIdx) (n : Nibble) {s : State}

/-! ### Instructions that look up a digit or a key (R114, R123, R124) -/

theorem exec_ldF_of_le (h : (s.reg x).toNat ≤ 0xF) : exec (.ldF x) s = .next (s.setI (glyphIndex (s.reg x))) := by
  show execLdF x s = _
  rw [execLdF, hexDigit_of_le h]

theorem exec_ldF_of_gt (h : (s.reg x).toNat > 0xF) :
    exec (.ldF x) s = .next (faulted s (.ldF x) .outOfBounds (some (byteWord (s.reg x)))) := by
  show execLdF x s = _
  rw [execLdF, hexDigit_of_gt h, State.raise_eq_faulted]

theorem exec_skp_of_le (h : (s.reg x).toNat ≤ 0xF) :
    exec (.skp x) s = .next { s with pc := if s.keys.getLsbD (s.reg x).toNat then s.pc + 2 else s.pc } := by
  show execSkp x s = _
  rw [execSkp, hexDigit_of_le h]
  exact congrArg _ (State.skipIf_eq s _)

theorem exec_skp_of_gt (h : (s.reg x).toNat > 0xF) :
    exec (.skp x) s = .next (faulted s (.skp x) .outOfBounds (some (byteWord (s.reg x)))) := by
  show execSkp x s = _
  rw [execSkp, hexDigit_of_gt h, State.raise_eq_faulted]

theorem exec_sknp_of_le (h : (s.reg x).toNat ≤ 0xF) :
    exec (.sknp x) s = .next { s with pc := if s.keys.getLsbD (s.reg x).toNat then s.pc else s.pc + 2 } := by
  show execSknp x s = _
  rw [execSknp, hexDigit_of_le h]
  simp only [State.skipIf_eq, State.keyPressed, Bool.not_eq_true', ← Bool.not_eq_true, ite_not]

theorem exec_sknp_of_gt (h : (s.reg x).toNat > 0xF) :
    exec (.sknp x) s = .next (faulted s (.sknp x) .outOfBounds (some (byteWord (s.reg x)))) := by
  show execSknp x s = _
  rw [execSknp, hexDigit_of_gt h, State.raise_eq_faulted]

/-! ### Instructions that store, load or draw a group of bytes at `I` (R115 to R117, R122) -/

theorem exec_ldB_of_le (h : s.iReg.toNat + 2 ≤ 0xFFF) :
    exec (.ldB x) s = .next (s.setMem (s.mem.putFrom s.iReg.toNat (bcdDigits (s.reg x)))) := by
  show execLdB x s = _
  rw [execLdB, State.indexAddress, memWriteGroup_ok (by rw [length_bcdDigits]; omega)]

theorem exec_ldB_of_gt (h : s.iReg.toNat + 2 > 0xFFF) :
    exec (.ldB x) s = .next (faulted s (.ldB x) .outOfBounds (some 0x1000)) := by
  show execLdB x s = _
  rw [execLdB, State.indexAddress, memWriteGroup_fail (by simp) (by rw [length_bcdDigits]; omega),
    State.raise_eq_faulted, beyondMemory]

theorem exec_storeRegs_of_le (h : s.iReg.toNat + x.val ≤ 0xFFF) :
    exec (.storeRegs x) s = .next (s.setMem (s.mem.putFrom s.iReg.toNat (s.regBlock x))) := by
  show execStoreRegs x s = _
  rw [execStoreRegs, State.indexAddress, memWriteGroup_ok (by rw [State.length_regBlock]; omega)]

theorem exec_storeRegs_of_gt (h : s.iReg.toNat + x.val > 0xFFF) :
    exec (.storeRegs x) s = .next (faulted s (.storeRegs x) .outOfBounds (some 0x1000)) := by
  show execStoreRegs x s = _
  rw [execStoreRegs, State.indexAddress, memWriteGroup_fail (by simp) (by rw [State.length_regBlock]; omega),
    State.raise_eq_faulted, beyondMemory]

/-- The register file that LD Vx, [I] leaves: V0 to Vx from memory, the others as before (R117). -/
def State.loadedRegs (s : State) (x : RegIdx) : Vector Byte 16 :=
  Vector.ofFn fun r => if r ≤ x then s.mem.byteAt (s.iReg.toNat + r.val) else s.reg r

/-- A write of consecutive registers changes the register file alone. -/
theorem State.setRegsFrom_eq (s : State) (k : Nat) (bs : List Byte) :
    s.setRegsFrom k bs = { s with v := (s.setRegsFrom k bs).v } := by
  induction bs generalizing s k with
  | nil => rfl
  | cons b bs ih => exact ih { s with v := s.v.setIfInBounds k b } (k + 1)

theorem State.setRegsFrom_bytesFrom (s : State) (x : RegIdx) :
    s.setRegsFrom 0 (s.mem.bytesFrom s.iReg.toNat (x.val + 1)) = { s with v := s.loadedRegs x } := by
  have hv : (s.setRegsFrom 0 (s.mem.bytesFrom s.iReg.toNat (x.val + 1))).v = s.loadedRegs x := by
    refine Vector.ext fun r hr => ?_
    have hread := s.reg_setRegsFrom 0 (s.mem.bytesFrom s.iReg.toNat (x.val + 1)) ⟨r, hr⟩
    rw [Memory.length_bytesFrom] at hread
    rw [State.loadedRegs, Vector.getElem_ofFn]
    by_cases hle : (⟨r, hr⟩ : RegIdx) ≤ x
    · have hlt : r < x.val + 1 := Nat.lt_succ_of_le hle
      rw [if_pos ⟨Nat.zero_le r, by omega⟩, List.getD_eq_getElem?_getD, Nat.sub_zero,
        Memory.getElem?_bytesFrom _ _ _ r hlt] at hread
      rw [if_pos hle]
      exact hread
    · have hge : ¬ r < x.val + 1 := fun hlt => hle (Nat.le_of_lt_succ hlt)
      rw [if_neg (by omega)] at hread
      rw [if_neg hle]
      exact hread
  rw [State.setRegsFrom_eq, hv]

theorem exec_loadRegs_of_le (h : s.iReg.toNat + x.val ≤ 0xFFF) :
    exec (.loadRegs x) s = .next { s with v := s.loadedRegs x } := by
  show execLoadRegs x s = _
  rw [execLoadRegs, State.indexAddress, blockSize, memReadGroup_ok (by omega)]
  exact congrArg _ (s.setRegsFrom_bytesFrom x)

theorem exec_loadRegs_of_gt (h : s.iReg.toNat + x.val > 0xFFF) :
    exec (.loadRegs x) s = .next (faulted s (.loadRegs x) .outOfBounds (some 0x1000)) := by
  show execLoadRegs x s = _
  rw [execLoadRegs, State.indexAddress, blockSize, memReadGroup_fail (by omega) (by omega), State.raise_eq_faulted,
    beyondMemory]

/-- The canvas that DRW Vx, Vy, n leaves (R122). -/
def State.drawn (s : State) (x y : RegIdx) (n : Nibble) : Canvas :=
  Canvas.drawRows (spriteColumn (s.reg x)) (spriteRow (s.reg y)) (s.mem.bytesFrom s.iReg.toNat n.toNat) ⟨s.disp, false⟩

theorem exec_drw_of_le (h : n.toNat = 0 ∨ s.iReg.toNat + n.toNat - 1 ≤ 0xFFF) :
    exec (.drw x y n) s =
      .next ((s.setDisp (s.drawn x y n).disp).setReg vf (flagByte (s.drawn x y n).collide)) := by
  show execDrw x y n s = _
  rw [execDrw, State.indexAddress, memReadGroup_ok (by omega)]
  rfl

theorem exec_drw_of_gt (h : n.toNat > 0 ∧ s.iReg.toNat + n.toNat - 1 > 0xFFF) :
    exec (.drw x y n) s = .next (faulted s (.drw x y n) .outOfBounds (some 0x1000)) := by
  show execDrw x y n s = _
  rw [execDrw, State.indexAddress, memReadGroup_fail (by omega) (by omega), State.raise_eq_faulted, beyondMemory]

end

/-! ### LD Vx, K (R80, R126) -/

theorem keySelect_of_least {keys : BitVec 16} {k : Nat} (hdown : keys.getLsbD k = true)
    (hleast : ∀ j < k, keys.getLsbD j = false) : keySelect keys = some k := by
  cases hsel : keySelect keys with
  | none => simp [keySelect_eq_none.1 hsel] at hdown
  | some k' =>
    obtain ⟨-, hdown', hleast'⟩ := keySelect_eq_some hsel
    rcases Nat.lt_trichotomy k' k with h | h | h
    · simp [hleast k' h] at hdown'
    · rw [h]
    · simp [hleast' k h] at hdown

theorem keySelect_of_none_pressed {keys : BitVec 16} (h : ∀ k < 16, keys.getLsbD k = false) : keySelect keys = none :=
  keySelect_eq_none.2 (BitVec.eq_of_getLsbD_eq fun k hk => by rw [h k hk]; simp)

theorem exec_ldVxK_of_some (x : RegIdx) {s : State} {k : Nat} (h : keySelect s.keys = some k) :
    exec (.ldVxK x) s = .next (s.setReg x (BitVec.ofNat 8 k)) := by
  show execLdVxK x s = _
  rw [execLdVxK, h]

theorem exec_ldVxK_of_none (x : RegIdx) {s : State} (h : keySelect s.keys = none) :
    exec (.ldVxK x) s = .next (s.rewindPc.setStatus (.waitKey x)) := by
  show execLdVxK x s = _
  rw [execLdVxK, h]

/-! ### Every instruction -/

/-- The state in which instruction `i` completes, from the state after fetch, where the table of faults lists no fault. -/
def completed (i : Instr) (s : State) : State :=
  match i with
  | .cls => s.setDisp Display.clear
  | .ret => { s with pc := s.entry (s.sp.val - 1), sp := ⟨s.sp.val - 1, by omega⟩ }
  | .sys _ => s
  | .jp nnn => s.setPc (addrWord nnn)
  | .call nnn =>
    { s with pc := addrWord nnn, sp := Fin.ofNat 17 (s.sp.val + 1), stack := s.stack.setIfInBounds s.sp.val s.pc }
  | .jpV0 nnn => s.setPc (indexedTarget nnn (s.reg 0))
  | .seByte .. | .sneByte .. | .seReg .. | .sneReg .. | .skp _ | .sknp _ => s.setPc (pcAfter i s)
  | .ldByte x kk => s.setReg x kk
  | .addByte x kk => s.setReg x (s.reg x + kk)
  | .ldReg x y => s.setReg x (s.reg y)
  | .orReg x y => s.setReg x (s.reg x ||| s.reg y)
  | .andReg x y => s.setReg x (s.reg x &&& s.reg y)
  | .xorReg x y => s.setReg x (s.reg x ^^^ s.reg y)
  | .addReg x y =>
    let sum := (s.reg x).toNat + (s.reg y).toNat
    (s.setReg vf (carryFlag sum)).setReg x (BitVec.ofNat 8 sum)
  | .subReg x y =>
    let t := s.setReg vf (notBorrowFlag (s.reg x) (s.reg y))
    t.setReg x (t.reg x - t.reg y)
  | .subn x y =>
    let t := s.setReg vf (notBorrowFlag (s.reg y) (s.reg x))
    t.setReg x (t.reg y - t.reg x)
  | .shr x _ =>
    let t := s.setReg vf (shiftedOutRight (s.reg x))
    t.setReg x (t.reg x >>> 1)
  | .shl x _ =>
    let t := s.setReg vf (shiftedOutLeft (s.reg x))
    t.setReg x (t.reg x <<< 1)
  | .rnd x kk => s.setReg x (s.rnd &&& kk)
  | .ldI nnn => s.setI (addrWord nnn)
  | .addI x => s.setI (indexSum s.iReg (s.reg x))
  | .ldF x => s.setI (glyphIndex (s.reg x))
  | .ldB x => s.setMem (s.mem.putFrom s.iReg.toNat (bcdDigits (s.reg x)))
  | .storeRegs x => s.setMem (s.mem.putFrom s.iReg.toNat (s.regBlock x))
  | .loadRegs x => { s with v := s.loadedRegs x }
  | .drw x y n => (s.setDisp (s.drawn x y n).disp).setReg vf (flagByte (s.drawn x y n).collide)
  | .ldVxDt x => s.setReg x s.dt
  | .ldDtVx x => s.setDt (s.reg x)
  | .ldStVx x => s.setSt (s.reg x)
  | .ldVxK x =>
    { s with
      v := (keySelect s.keys).elim s.v fun k => s.v.set x (BitVec.ofNat 8 k)
      pc := pcAfter (.ldVxK x) s
      status := if s.keys = 0 then .waitKey x else s.status }

/-- Where the table lists no fault, the instruction completes. -/
theorem exec_of_raises_eq_none {i : Instr} {s : State} (h : raises i s = none) : exec i s = .next (completed i s) := by
  cases i with
  | ret => exact exec_ret_of_pos (Nat.pos_of_ne_zero fun h0 => by simp [raises, h0] at h)
  | call nnn =>
    have hne : s.sp.val ≠ 16 := by simpa [raises] using h
    have hlt : s.sp.val < 16 := by omega
    have hsp : Fin.ofNat 17 (s.sp.val + 1) = ⟨s.sp.val + 1, by omega⟩ := Fin.ext (Nat.mod_eq_of_lt (by omega))
    have hset : s.stack.setIfInBounds s.sp.val s.pc = s.stack.set s.sp.val s.pc :=
      Vector.toArray_inj.1 (by simp [Array.setIfInBounds, hlt])
    rw [exec_call_of_lt nnn hlt, completed, hsp, hset]
  | seByte x kk => exact exec_seByte x kk s
  | sneByte x kk => rw [exec_sneByte, completed, pcAfter, ite_not]; rfl
  | seReg x y => exact exec_seByte x (s.reg y) s
  | sneReg x y => rw [exec_sneReg, exec_sneByte, completed, pcAfter, ite_not]; rfl
  | skp x => exact exec_skp_of_le x (by simpa [raises] using h)
  | sknp x => exact exec_sknp_of_le x (by simpa [raises] using h)
  | ldF x => exact exec_ldF_of_le x (by simpa [raises] using h)
  | ldB x => exact exec_ldB_of_le x (by simpa [raises] using h)
  | storeRegs x => exact exec_storeRegs_of_le x (by simpa [raises] using h)
  | loadRegs x => exact exec_loadRegs_of_le x (by simpa [raises] using h)
  | drw x y n =>
    have hfits : 0 < n.toNat → s.iReg.toNat + n.toNat - 1 ≤ 0xFFF := by simpa [raises] using h
    exact exec_drw_of_le x y n (by omega)
  | ldVxK x =>
    cases hsel : keySelect s.keys with
    | some k =>
      have hpressed : s.keys ≠ 0 := fun h0 => by simp [keySelect_eq_none.2 h0] at hsel
      rw [exec_ldVxK_of_some x hsel]
      simp only [completed, pcAfter, hsel, Option.elim, if_neg hpressed]
      rfl
    | none =>
      rw [exec_ldVxK_of_none x hsel]
      simp only [completed, pcAfter, hsel, Option.elim, if_pos (keySelect_eq_none.1 hsel)]
      rfl
  | _ => rfl

/-- Where the table lists a fault, the instruction takes it. -/
theorem exec_of_raises_eq_some {i : Instr} {s : State} {k : Fault} {info : Option Word}
    (h : raises i s = some (k, info)) : exec i s = .next (faulted s i k info) := by
  cases i with
  | ret =>
    obtain ⟨hempty, hrow⟩ := Option.ite_none_right_eq_some.1 h
    cases hrow; exact exec_ret_of_empty hempty
  | call nnn =>
    obtain ⟨hfull, hrow⟩ := Option.ite_none_right_eq_some.1 h
    cases hrow; exact exec_call_of_full nnn hfull
  | ldF x =>
    obtain ⟨hgt, hrow⟩ := Option.ite_none_right_eq_some.1 h
    cases hrow; exact exec_ldF_of_gt x hgt
  | skp x =>
    obtain ⟨hgt, hrow⟩ := Option.ite_none_right_eq_some.1 h
    cases hrow; exact exec_skp_of_gt x hgt
  | sknp x =>
    obtain ⟨hgt, hrow⟩ := Option.ite_none_right_eq_some.1 h
    cases hrow; exact exec_sknp_of_gt x hgt
  | ldB x =>
    obtain ⟨hgt, hrow⟩ := Option.ite_none_right_eq_some.1 h
    cases hrow; exact exec_ldB_of_gt x hgt
  | storeRegs x =>
    obtain ⟨hgt, hrow⟩ := Option.ite_none_right_eq_some.1 h
    cases hrow; exact exec_storeRegs_of_gt x hgt
  | loadRegs x =>
    obtain ⟨hgt, hrow⟩ := Option.ite_none_right_eq_some.1 h
    cases hrow; exact exec_loadRegs_of_gt x hgt
  | drw x y n =>
    obtain ⟨hgt, hrow⟩ := Option.ite_none_right_eq_some.1 h
    cases hrow; exact exec_drw_of_gt x y n hgt
  | _ => cases h

/-- All an instruction can do: complete, or take the fault of the table. -/
theorem exec_cases (i : Instr) (s : State) :
    (raises i s = none ∧ exec i s = .next (completed i s)) ∨
    ∃ k info, raises i s = some (k, info) ∧ exec i s = .next (faulted s i k info) := by
  cases h : raises i s with
  | none => exact .inl ⟨rfl, exec_of_raises_eq_none h⟩
  | some f => exact .inr ⟨f.1, f.2, rfl, exec_of_raises_eq_some h⟩

/-- Settles O18. -/
theorem instructionsTakeTheListedFaults : Obligations.InstructionsTakeTheListedFaults := by
  unfold Obligations.InstructionsTakeTheListedFaults
  exact fun i s k info h => exec_of_raises_eq_some h

end Sys2Proof.Machine
end

section
/-! PROOFS. The frames of 10_state.md R28 to R38, 20_memory.md R52 and 60_exceptions.md R131: what each instruction leaves
unchanged, read off the state it completes in and the state its fault leaves. -/

namespace Sys2Proof.Machine

/-- The state after an instruction: the one it completes in, or the one its fault leaves. -/
theorem exec_eq_next {i : Instr} {s t : State} (h : exec i s = .next t) :
    (raises i s = none ∧ t = completed i s) ∨ ∃ k info, raises i s = some (k, info) ∧ t = faulted s i k info := by
  obtain ⟨hraises, hexec⟩ | ⟨k, info, hraises, hexec⟩ := exec_cases i s
  · exact .inl ⟨hraises, Host.Outcome.next.inj (h.symm.trans hexec)⟩
  · exact .inr ⟨k, info, hraises, Host.Outcome.next.inj (h.symm.trans hexec)⟩

/-- What holds of the state an instruction completes in and of the states its faults leave, holds after it. -/
theorem exec_induction {P : State → Prop} {i : Instr} {s t : State} (h : exec i s = .next t)
    (hcompleted : P (completed i s)) (hfaulted : ∀ k info, P (faulted s i k info)) : P t := by
  obtain ⟨-, rfl⟩ | ⟨k, info, -, rfl⟩ := exec_eq_next h
  · exact hcompleted
  · exact hfaulted k info

/-! ### The state an instruction completes in, field by field -/

section
variable (i : Instr) (s : State)

theorem completed_pc : (completed i s).pc = pcAfter i s := by
  cases i <;> rfl

theorem completed_keys : (completed i s).keys = s.keys := by
  cases i <;> rfl

theorem completed_rnd : (completed i s).rnd = s.rnd := by
  cases i <;> rfl

theorem completed_inputs : (completed i s).inputs = s.inputs := by
  cases i <;> rfl

theorem completed_draws : (completed i s).draws = s.draws := by
  cases i <;> rfl

variable {i}

theorem completed_stack (h : writesStack i = false) : (completed i s).stack = s.stack := by
  cases i with
  | call | ret => cases h
  | _ => rfl

theorem completed_sp (h : writesStack i = false) : (completed i s).sp = s.sp := by
  cases i with
  | call | ret => cases h
  | _ => rfl

theorem completed_iReg (h : writesI i = false) : (completed i s).iReg = s.iReg := by
  cases i with
  | ldI | addI | ldF => cases h
  | _ => rfl

theorem completed_disp (h : writesDisplay i = false) : (completed i s).disp = s.disp := by
  cases i with
  | cls | drw => cases h
  | _ => rfl

theorem completed_dt (h : ∀ x, i ≠ .ldDtVx x) : (completed i s).dt = s.dt := by
  cases i with
  | ldDtVx x => exact absurd rfl (h x)
  | _ => rfl

theorem completed_st (h : ∀ x, i ≠ .ldStVx x) : (completed i s).st = s.st := by
  cases i with
  | ldStVx x => exact absurd rfl (h x)
  | _ => rfl

/-- The status stays, but LD Vx, K waits where no key is pressed (R43, R126). -/
theorem completed_status_cases (i : Instr) : (completed i s).status = s.status ∨
    ∃ x, i = .ldVxK x ∧ s.keys = 0 ∧ (completed i s).status = .waitKey x := by
  cases i with
  | ldVxK x =>
    by_cases hkeys : s.keys = 0
    · exact .inr ⟨x, rfl, hkeys, if_pos hkeys⟩
    · exact .inl (if_neg hkeys)
  | _ => exact .inl rfl

/-- CALL writes the entry at SP, RET none: the entries below SP stay (R35). -/
theorem completed_entry {j : Nat} (hj : j < s.sp.val) : (completed i s).entry j = s.entry j := by
  cases i with
  | call nnn =>
    have hj16 : j < 16 := by omega
    rw [State.entry_of_lt _ hj16, State.entry_of_lt _ hj16]
    exact Vector.getElem_setIfInBounds_ne hj16 (by omega)
  | _ => rfl

/-- An address outside the bytes an instruction stores reads as before (R52). -/
theorem completed_byteAt {a : Nat} (h : a < s.indexAddress ∨ s.indexAddress + storeCount i ≤ a) :
    (completed i s).mem.byteAt a = s.mem.byteAt a := by
  cases i with
  | ldB x => exact Memory.byteAt_putFrom_outside _ (by rw [length_bcdDigits]; exact h)
  | storeRegs x => exact Memory.byteAt_putFrom_outside _ (by rw [State.length_regBlock]; exact h)
  | _ => rfl

theorem completed_loadRegs_reg (x r : RegIdx) :
    (completed (.loadRegs x) s).reg r = if r ≤ x then s.mem.byteAt (s.iReg.toNat + r.val) else s.reg r :=
  Vector.getElem_ofFn r.isLt

/-- A register that the table does not list keeps its value (R28). -/
theorem completed_reg {r : RegIdx} (h : r ∉ destRegs i) : (completed i s).reg r = s.reg r := by
  cases i with
  | ldByte x | addByte x | ldReg x | orReg x | andReg x | xorReg x | rnd x | ldVxDt x =>
    have hx : r ≠ x := by simpa [destRegs] using h
    exact State.reg_setReg_other s hx.symm _
  | ldVxK x =>
    have hx : r ≠ x := by simpa [destRegs] using h
    cases hsel : keySelect s.keys with
    | none => exact State.reg_congr (by simp only [completed, hsel, Option.elim]) r
    | some k =>
      exact (State.reg_congr (by simp only [completed, hsel, Option.elim, State.setReg_v]) r).trans
        (State.reg_setReg_other s hx.symm (BitVec.ofNat 8 k))
  | addReg x | subReg x | subn x | shr x | shl x =>
    obtain ⟨hvf, hx⟩ : r ≠ vf ∧ r ≠ x := by simpa [destRegs] using h
    exact (State.reg_setReg_other _ hx.symm _).trans (State.reg_setReg_other s hvf.symm _)
  | drw =>
    have hvf : r ≠ vf := by simpa [destRegs] using h
    exact State.reg_setReg_other _ hvf.symm _
  | loadRegs x =>
    have hx : ¬ r ≤ x := by simpa [destRegs] using h
    rw [completed_loadRegs_reg, if_neg hx]
  | _ => rfl

/-! ### The inputs (R36, R38, R111) -/

/-- No check of the table of faults reads the keys, the random byte or ST. -/
theorem raises_with_inputs (k : BitVec 16) (b c : Byte) :
    raises i { s with keys := k, rnd := b, st := c } = raises i s := by
  cases i <;> rfl

theorem completed_with_keys (h : ∀ x, i ≠ .skp x ∧ i ≠ .sknp x ∧ i ≠ .ldVxK x) (k : BitVec 16) :
    completed i { s with keys := k } = { completed i s with keys := k } := by
  cases i with
  | skp x | sknp x | ldVxK x => exact absurd (h x) (by simp)
  | _ => rfl

theorem completed_with_rnd (h : ∀ x kk, i ≠ .rnd x kk) (b : Byte) :
    completed i { s with rnd := b } = { completed i s with rnd := b } := by
  cases i with
  | rnd x kk => exact absurd rfl (h x kk)
  | _ => rfl

theorem completed_with_st (h : ∀ x, i ≠ .ldStVx x) (b : Byte) :
    completed i { s with st := b } = { completed i s with st := b } := by
  cases i with
  | ldStVx x => exact absurd rfl (h x)
  | _ => rfl

end

/-- A change of the state that the check, the completed state and the fault's state do not see comes out as it went in. -/
theorem exec_commutes {i : Instr} {s t : State} (f : State → State) (hraises : raises i (f s) = raises i s)
    (hcompleted : completed i (f s) = f (completed i s))
    (hfaulted : ∀ k info, faulted (f s) i k info = f (faulted s i k info)) (h : exec i s = .next t) :
    exec i (f s) = .next (f t) := by
  obtain ⟨hnone, rfl⟩ | ⟨k, info, hsome, rfl⟩ := exec_eq_next h
  · rw [exec_of_raises_eq_none (hraises.trans hnone), hcompleted]
  · rw [exec_of_raises_eq_some (hraises.trans hsome), hfaulted]

/-! ### The obligations -/

/-- Settles O52. -/
theorem registersChangeOnlyWhereListed : Obligations.RegistersChangeOnlyWhereListed := by
  unfold Obligations.RegistersChangeOnlyWhereListed
  intro i s t h r hr
  exact exec_induction (P := fun t => t.reg r = s.reg r) h (completed_reg s hr) fun _ _ => rfl

/-- Settles O53: the table of `PC` values holds of the state an instruction completes in. -/
theorem pcAfterEachInstruction : Obligations.PcAfterEachInstruction := by
  unfold Obligations.PcAfterEachInstruction
  intro i s t hraises h
  obtain rfl := Host.Outcome.next.inj ((exec_of_raises_eq_none hraises).symm.trans h)
  exact completed_pc i s

/-- Settles O54. -/
theorem stackMovesOnlyByCallAndRet : Obligations.StackMovesOnlyByCallAndRet := by
  unfold Obligations.StackMovesOnlyByCallAndRet
  intro i s t h
  refine exec_induction (P := fun t => (writesStack i = false → t.stack = s.stack ∧ t.sp = s.sp) ∧
    ∀ j < s.sp.val, t.entry j = s.entry j) h ?_ fun _ _ => ⟨fun _ => ⟨rfl, rfl⟩, fun _ _ => rfl⟩
  exact ⟨fun hw => ⟨completed_stack s hw, completed_sp s hw⟩, fun j hj => completed_entry s hj⟩

/-- Settles O55. -/
theorem timersChangeOnlyByTheirLoads : Obligations.TimersChangeOnlyByTheirLoads := by
  unfold Obligations.TimersChangeOnlyByTheirLoads
  intro i s t h
  exact exec_induction (P := fun t => ((∀ x, i ≠ .ldDtVx x) → t.dt = s.dt) ∧ ((∀ x, i ≠ .ldStVx x) → t.st = s.st)) h
    ⟨completed_dt s, completed_st s⟩ fun _ _ => ⟨fun _ => rfl, fun _ => rfl⟩

/-- Settles O56. -/
theorem indexAndDisplayChangeOnlyWhereListed : Obligations.IndexAndDisplayChangeOnlyWhereListed := by
  unfold Obligations.IndexAndDisplayChangeOnlyWhereListed
  intro i s t h
  exact exec_induction (P := fun t => (writesI i = false → t.iReg = s.iReg) ∧ (writesDisplay i = false → t.disp = s.disp)) h
    ⟨completed_iReg s, completed_disp s⟩ fun _ _ => ⟨fun _ => rfl, fun _ => rfl⟩

/-- Settles O57. -/
theorem memoryChangesOnlyWhereStored : Obligations.MemoryChangesOnlyWhereStored := by
  unfold Obligations.MemoryChangesOnlyWhereStored
  intro i s t h a ha
  exact exec_induction (P := fun t => t.mem.byteAt a = s.mem.byteAt a) h (completed_byteAt s ha) fun _ _ => rfl

/-- Settles O58: the state an instruction completes in has the old status or waits, the state of its fault has the record
of the table. -/
theorem statusChangesOnlyByWaitsAndFaults : Obligations.StatusChangesOnlyByWaitsAndFaults := by
  unfold Obligations.StatusChangesOnlyByWaitsAndFaults
  intro i s t h
  obtain ⟨hraises, rfl⟩ | ⟨k, info, hraises, rfl⟩ := exec_eq_next h
  · exact (completed_status_cases s i).imp (fun hsame => ⟨hraises, hsame⟩) .inl
  · exact .inr (.inr ⟨k, info, hraises, rfl⟩)

/-- Settles O60: for each of the three inputs, an instruction that does not read it commutes with its change. -/
theorem inputsAreReadOnlyWhereListed : Obligations.InputsAreReadOnlyWhereListed := by
  unfold Obligations.InputsAreReadOnlyWhereListed
  intro i s t h
  refine ⟨fun k hi => ?keys, fun b hi => ?rnd, fun b hi => ?st⟩
  case keys =>
    exact exec_commutes (fun s => { s with keys := k }) (raises_with_inputs s k s.rnd s.st)
      (completed_with_keys s hi k) (fun _ _ => rfl) h
  case rnd =>
    exact exec_commutes (fun s => { s with rnd := b }) (raises_with_inputs s s.keys b s.st)
      (completed_with_rnd s hi b) (fun _ _ => rfl) h
  case st =>
    exact exec_commutes (fun s => { s with st := b }) (raises_with_inputs s s.keys s.rnd b)
      (completed_with_st s hi b) (fun _ _ => rfl) h

end Sys2Proof.Machine
end

section
/-! PROOFS. The step (40_engine.md R72 to R82, 60_exceptions.md R131 to R136): a cycle faults with the record of the first
check that fails or completes its instruction, a wait polls the keys, and FAULT stays. -/

namespace Sys2Proof.Machine

section
variable {s t : State}

/-! ### The record of a cycle's fault (R131 to R133) -/

theorem fetchOk_eq_false_iff (a : Word) : fetchOk a = false ↔ a.toNat % 2 = 1 ∨ a.toNat + 1 > 0xFFF := by
  rw [← Bool.not_eq_true, fetchOk_iff]
  omega

theorem faultOf_of_fetchOk_eq_false (h : fetchOk s.pc = false) :
    s.faultOf = some ⟨.outOfBounds, s.pc, none, some s.pc⟩ :=
  if_pos ((fetchOk_eq_false_iff s.pc).1 h)

theorem faultOf_of_decodeWord_eq_none (hok : fetchOk s.pc = true) (h : decodeWord (s.mem.wordAt s.pc.toNat) = none) :
    s.faultOf = some ⟨.unknownOpcode, s.pc, some (s.mem.wordAt s.pc.toNat), some (s.mem.wordAt s.pc.toNat)⟩ := by
  rw [State.faultOf, if_neg fun hbad => by simp [(fetchOk_eq_false_iff s.pc).2 hbad] at hok]
  simp only [h]

theorem faultOf_of_decodeWord_eq_some (hok : fetchOk s.pc = true) {i : Instr}
    (h : decodeWord (s.mem.wordAt s.pc.toNat) = some i) :
    s.faultOf = (raises i s).map fun f => ⟨f.1, s.pc, some (s.mem.wordAt s.pc.toNat), f.2⟩ := by
  rw [State.faultOf, if_neg fun hbad => by simp [(fetchOk_eq_false_iff s.pc).2 hbad] at hok]
  simp only [h]
  cases raises i s <;> rfl

/-! ### The cycle (R72, R81) -/

/-- No check of the table of faults reads `PC`. -/
theorem raises_advancePc (i : Instr) (s : State) : raises i s.advancePc = raises i s := by
  cases i <;> rfl

/-- The fault of an instruction that was fetched in `s` leaves `s` but for the status (R78, R81). -/
theorem faulted_advancePc (s : State) (i : Instr) (k : Fault) (info : Option Word) :
    faulted s.advancePc i k info = s.setStatus (.fault ⟨k, s.pc, some (encode i), info⟩) := by
  simp only [faulted, State.advancePc_pc, BitVec.add_sub_cancel]
  rfl

/-- All a cycle can do: fault with the record of the first check that fails, or complete the instruction at `PC`. -/
theorem runCycle_faults_or_completes (s : State) :
    (∃ r, s.faultOf = some r ∧ r.pc = s.pc ∧
      r.word = (if fetchOk s.pc then some (s.mem.wordAt s.pc.toNat) else none) ∧
      runCycle s = .next (s.setStatus (.fault r))) ∨
    (s.faultOf = none ∧ ∃ i, fetchOk s.pc = true ∧ decodeWord (s.mem.wordAt s.pc.toNat) = some i ∧ raises i s = none ∧
      runCycle s = .next (completed i s.advancePc)) := by
  obtain ⟨hbad, hrun⟩ | ⟨hok, hdec, hrun⟩ | ⟨i, hok, hdec, hrun⟩ := runCycle_cases s
  · exact .inl ⟨_, faultOf_of_fetchOk_eq_false hbad, rfl, by simp [hbad], hrun⟩
  · exact .inl ⟨_, faultOf_of_decodeWord_eq_none hok hdec, rfl, by simp [hok], hrun⟩
  · have hrec := faultOf_of_decodeWord_eq_some hok hdec
    cases hraises : raises i s with
    | none =>
      rw [hraises] at hrec
      have hadvanced := (raises_advancePc i s).trans hraises
      exact .inr ⟨hrec, i, hok, hdec, hraises, hrun.trans (exec_of_raises_eq_none hadvanced)⟩
    | some f =>
      rw [hraises] at hrec
      have hadvanced := (raises_advancePc i s).trans hraises
      refine .inl ⟨_, hrec, rfl, by simp [hok], hrun.trans ?_⟩
      rw [exec_of_raises_eq_some hadvanced, faulted_advancePc, (decodeWord_encodes hdec).2]

theorem engineStep_of_run (h : s.status = .run) : engineStep s = runCycle s := by
  simp only [engineStep, h]

/-- Past its two checks a step from RUN runs the decoded instruction (R77). -/
theorem engineStep_of_decodeWord (hrun : s.status = .run) (hok : fetchOk s.pc = true) {i : Instr}
    (hdec : decodeWord (s.mem.wordAt s.pc.toNat) = some i) : engineStep s = exec i s.advancePc := by
  rw [engineStep_of_run hrun, runCycle, if_pos hok]
  simp only [hdec]

theorem engineStep_of_fault {r : FaultRecord} (h : s.status = .fault r) : engineStep s = .next s := by
  simp only [engineStep, h]

theorem engineStep_of_waitKey {x : RegIdx} (h : s.status = .waitKey x) : engineStep s = .next (waitStep x s) := by
  simp only [engineStep, h]

/-- Every step of the engine answers a next state. -/
theorem exists_engineStep_eq_next (s : State) : ∃ t, engineStep s = .next t := by
  obtain ⟨r, -, he⟩ | ⟨x, -, he⟩ | ⟨-, he⟩ := engineStep_cases s
  · exact ⟨_, he⟩
  · exact ⟨_, he⟩
  · obtain ⟨r, -, -, -, hrun⟩ | ⟨-, i, -, -, -, hrun⟩ := runCycle_faults_or_completes s
    · exact ⟨_, he.trans hrun⟩
    · exact ⟨_, he.trans hrun⟩

/-- All a step from RUN can do: fault with the record of the first check that fails, or complete the instruction at
`PC`. -/
theorem engineStep_run_eq_next (hrun : s.status = .run) (h : engineStep s = .next t) :
    (∃ r, s.faultOf = some r ∧ r.pc = s.pc ∧
      r.word = (if fetchOk s.pc then some (s.mem.wordAt s.pc.toNat) else none) ∧ t = s.setStatus (.fault r)) ∨
    (s.faultOf = none ∧ ∃ i, fetchOk s.pc = true ∧ decodeWord (s.mem.wordAt s.pc.toNat) = some i ∧ raises i s = none ∧
      t = completed i s.advancePc) := by
  rw [engineStep_of_run hrun] at h
  obtain ⟨r, hrec, hpc, hword, he⟩ | ⟨hrec, i, hok, hdec, hraises, he⟩ := runCycle_faults_or_completes s
  · exact .inl ⟨r, hrec, hpc, hword, Host.Outcome.next.inj (h.symm.trans he)⟩
  · exact .inr ⟨hrec, i, hok, hdec, hraises, Host.Outcome.next.inj (h.symm.trans he)⟩

/-- No completed instruction enters FAULT. -/
theorem completed_status_ne_fault (h : s.status = .run) (i : Instr) (r : FaultRecord) :
    (completed i s).status ≠ .fault r := by
  obtain hst | ⟨x, -, -, hst⟩ := completed_status_cases s i
  · simp [hst, h]
  · simp [hst]

/-- The wait ends in RUN or goes on (R79). -/
theorem waitStep_status_ne_fault {x : RegIdx} (h : s.status = .waitKey x) (r : FaultRecord) :
    (waitStep x s).status ≠ .fault r := by
  unfold waitStep
  split
  · simp
  · simp [h]

/-! ### The host's operations, where they succeed -/

theorem loadProgram_eq_ok {bytes : List Byte} {offset : Nat} (h : loadProgram bytes offset s = .ok t) :
    (0x200 ≤ offset ∧ offset ≤ 0xFFF) ∧ offset + bytes.length ≤ 0x1000 ∧
      t = s.setMem (s.mem.putFrom offset bytes) := by
  unfold loadProgram at h
  split at h
  · cases h
  · next hoffset =>
    split at h
    · cases h
    · next hsize =>
      simp only [Config.programStart, Config.memTop, Config.memSize] at hoffset hsize
      exact ⟨by omega, by omega, (Except.ok.inj h).symm⟩

theorem writePc_eq_ok {a : Nat} (h : writePc s a = .ok t) : a ≤ 0xFFF ∧ t = s.setPc (BitVec.ofNat 16 a) := by
  unfold writePc at h
  split at h
  · next ha => exact ⟨ha, (Except.ok.inj h).symm⟩
  · cases h

theorem stepWith_of_next {keys : BitVec 16} {rnd : Byte} (h : engineStep (s.withInputs keys rnd) = .next t) :
    stepWith keys rnd s = t := by
  simp only [stepWith, h]

/-- A session's first operation is admitted and succeeds (R147, R148). -/
theorem session_cons_eq_some {p : Phase} {op : HostOp} {ops : List HostOp} (h : session p s (op :: ops) = some t) :
    ∃ q u, p.accept op = some q ∧ operate op s = .ok u ∧ session q u ops = some t := by
  rw [session] at h
  split at h
  · cases h
  · next q haccept =>
    split at h
    · next u hop => exact ⟨q, u, haccept, hop, h⟩
    · cases h

/-! ### Ticks (R129) -/

theorem toNat_ticks (n : Nat) (s : State) :
    (ticks n s).dt.toNat = s.dt.toNat - n ∧ (ticks n s).st.toNat = s.st.toNat - n := by
  induction n generalizing s with
  | zero => exact ⟨rfl, rfl⟩
  | succ n ih =>
    obtain ⟨hdt, hst⟩ := ih (tick s)
    rw [tick_dt, toNat_countDown] at hdt
    rw [tick_st, toNat_countDown] at hst
    exact ⟨hdt.trans (by omega), hst.trans (by omega)⟩

/-- Ticks change the timers alone (R129). -/
theorem ticks_eq (n : Nat) (s : State) : ticks n s = { s with dt := (ticks n s).dt, st := (ticks n s).st } := by
  induction n generalizing s with
  | zero => rfl
  | succ n ih => exact ih (tick s)

theorem countDown_eq_ite (b : Byte) : countDown b = if b.toNat > 0 then b - 1 else b := by
  by_cases h : b = 0
  · subst h; rfl
  · have hpos : b.toNat > 0 := Nat.pos_of_ne_zero fun h0 => h (BitVec.eq_of_toNat_eq h0)
    rw [countDown, if_neg h, if_pos hpos]

/-! ### The key wait (R79) -/

theorem waitStep_of_some {x : RegIdx} {k : Nat} (h : keySelect s.keys = some k) :
    waitStep x s = { s with v := s.v.set x (BitVec.ofNat 8 k), pc := s.pc + 2, status := .run } := by
  simp only [waitStep, h]
  rfl

theorem waitStep_of_none {x : RegIdx} (h : keySelect s.keys = none) : waitStep x s = s := by
  simp only [waitStep, h]

end

/-! ### The obligations -/

/-- Settles O15. -/
theorem everyStepAnswersANextState : Obligations.EveryStepAnswersANextState := by
  unfold Obligations.EveryStepAnswersANextState
  exact fun s => exists_engineStep_eq_next s.receiveInput

/-- Settles O16: a step from RUN with a failing check leaves that check's record, and one without completes an
instruction. -/
theorem stepFaultsExactlyWhenACheckFails : Obligations.StepFaultsExactlyWhenACheckFails := by
  unfold Obligations.StepFaultsExactlyWhenACheckFails
  refine ⟨fun s t hrun h r => ?run, fun s t x hwait h r => ?wait⟩
  case run =>
    obtain ⟨r', hrec, -, -, rfl⟩ | ⟨hrec, i, -, -, -, rfl⟩ := engineStep_run_eq_next hrun h
    · simp [hrec]
    · simp [hrec, completed_status_ne_fault (s := s.advancePc) hrun]
  case wait =>
    obtain rfl := Host.Outcome.next.inj ((engineStep_of_waitKey hwait).symm.trans h)
    exact waitStep_status_ne_fault hwait r

/-- Settles O17. -/
theorem faultsArePrecise : Obligations.FaultsArePrecise := by
  unfold Obligations.FaultsArePrecise
  intro s t r hrun h hfault
  obtain ⟨r', hrec, hpc, hword, rfl⟩ | ⟨-, i, -, -, -, rfl⟩ := engineStep_run_eq_next hrun h
  · obtain rfl : r' = r := by simpa using hfault
    refine ⟨rfl, hpc, hrec, ?_, ?_⟩
    · rw [hword]
      split
      · exact .inr rfl
      · exact .inl rfl
    · rw [hword, ← fetchOk_eq_false_iff]
      cases fetchOk s.pc <;> simp
  · exact absurd hfault (completed_status_ne_fault (s := s.advancePc) hrun i r)

/-- Settles O13: of the operations, only a reset writes the status of a faulted state. -/
theorem faultStatusIsSticky : Obligations.FaultStatusIsSticky := by
  unfold Obligations.FaultStatusIsSticky
  intro s r hfault
  refine ⟨engineStep_of_fault hfault, by simp only [State.report, hfault], fun op t h => ?_, fun m => s.resetOp_status m⟩
  cases op with
  | reset m => exact .inr ⟨m, rfl⟩
  | loadProgram bytes offset =>
    obtain ⟨-, -, rfl⟩ := loadProgram_eq_ok h
    exact .inl hfault
  | setPc a =>
    obtain ⟨-, rfl⟩ := writePc_eq_ok h
    exact .inl hfault
  | step keys rnd =>
    have hstay : engineStep (s.withInputs keys rnd) = .next (s.withInputs keys rnd) := engineStep_of_fault hfault
    obtain rfl := Except.ok.inj h
    exact .inl (by rw [stepWith_of_next hstay]; exact hfault)
  | tick =>
    obtain rfl := Except.ok.inj h
    exact .inl hfault

/-- Settles O10: the two bytes at `PC` are the word the cycle fetches, from the state that holds the step's inputs. -/
theorem stepRunsTheDecodedInstruction : Obligations.StepRunsTheDecodedInstruction := by
  unfold Obligations.StepRunsTheDecodedInstruction
  intro s i hrun heven htop hdec
  have hok : fetchOk s.receiveInput.pc = true := (fetchOk_iff _).2 ⟨by simpa using heven, by simpa using htop⟩
  have hdec' : decodeWord (s.receiveInput.mem.wordAt s.receiveInput.pc.toNat) = some i := by
    rw [State.receiveInput_mem, State.receiveInput_pc]
    exact hdec
  rw [step, engineStep_of_decodeWord (by simpa using hrun) hok hdec', State.advancePc, State.receiveInput_pc]

/-- Settles O12: the fetch check's clauses are those of `fetchOk`, and past it the cycle decodes. -/
theorem fetchChecksThePc : Obligations.FetchChecksThePc := by
  unfold Obligations.FetchChecksThePc
  intro s hrun
  rw [engineStep_of_run hrun]
  refine ⟨fun hbad => ?bad, fun ⟨heven, htop⟩ => ?ok⟩
  case bad =>
    rw [runCycle, (fetchOk_eq_false_iff s.pc).2 hbad]
    rfl
  case ok =>
    have hok : fetchOk s.pc = true := (fetchOk_iff s.pc).2 ⟨heven, by omega⟩
    obtain ⟨hbad, -⟩ | ⟨-, hdec, he⟩ | ⟨i, -, hdec, he⟩ := runCycle_cases s
    · simp [hok] at hbad
    · exact .inr ⟨hdec, _, rfl, he⟩
    · exact .inl ⟨i, hdec, he⟩

/-- Settles O24. -/
theorem timersClampAtZero : Obligations.TimersClampAtZero := by
  unfold Obligations.TimersClampAtZero
  exact toNat_ticks

/-- Settles O23: the tick is one count down of each timer. -/
theorem tickLowersNonzeroTimers : Obligations.TickLowersNonzeroTimers := by
  unfold Obligations.TickLowersNonzeroTimers
  intro s
  rw [← countDown_eq_ite, ← countDown_eq_ite]
  rfl

/-- Settles O11: with an entry left the schedule's ticks and inputs, past its end the free byte. -/
theorem stepReceivesTheHostsInputs : Obligations.StepReceivesTheHostsInputs := by
  unfold Obligations.StepReceivesTheHostsInputs
  refine fun s => ⟨fun h rest hin => ?_, fun hin => ?_⟩
  · have hrec : s.receiveInput = { (ticks h.ticks s).withInputs h.keys h.rnd with inputs := rest } := by
      simp only [State.receiveInput, hin]
    obtain ⟨hdt, hst⟩ := toNat_ticks h.ticks s
    refine ⟨?_, by rw [hrec]; exact hdt, by rw [hrec]; exact hst⟩
    rw [hrec, ticks_eq]
    rfl
  · simp only [State.receiveInput, hin]

/-- Settles O59: no case of a step writes KEY or the fields beside it. -/
theorem engineNeverChangesTheInputs : Obligations.EngineNeverChangesTheInputs := by
  unfold Obligations.EngineNeverChangesTheInputs
  intro s t h
  cases hst : s.status with
  | fault r =>
    obtain rfl := Host.Outcome.next.inj ((engineStep_of_fault hst).symm.trans h)
    exact ⟨rfl, rfl, rfl, rfl⟩
  | waitKey x =>
    obtain rfl := Host.Outcome.next.inj ((engineStep_of_waitKey hst).symm.trans h)
    unfold waitStep
    split <;> exact ⟨rfl, rfl, rfl, rfl⟩
  | run =>
    obtain ⟨r, -, -, -, rfl⟩ | ⟨-, i, -, -, -, rfl⟩ := engineStep_run_eq_next hst h
    · exact ⟨rfl, rfl, rfl, rfl⟩
    · exact ⟨completed_keys i _, completed_rnd i _, completed_inputs i _, completed_draws i _⟩

/-- Settles O14. -/
theorem keyWaitPollsTheKeys : Obligations.KeyWaitPollsTheKeys := by
  unfold Obligations.KeyWaitPollsTheKeys
  intro s x hwait
  rw [engineStep_of_waitKey hwait]
  refine ⟨fun hup => ?_, fun k _ hdown hleast => ?_, rfl, toNat_countDown s.dt, toNat_countDown s.st,
    fun m => s.resetOp_status m⟩
  · rw [waitStep_of_none (keySelect_of_none_pressed hup)]
  · rw [waitStep_of_some (keySelect_of_least hdown hleast)]

/-- Settles O51. -/
theorem keyLoadCompletesOrWaits : Obligations.KeyLoadCompletesOrWaits := by
  unfold Obligations.KeyLoadCompletesOrWaits
  refine ⟨fun x => decodeWord_wordK_F x 0x0A, fun x s => ⟨fun k _ hdown hleast => ?_, fun hup => ?_⟩⟩
  · exact exec_ldVxK_of_some x (keySelect_of_least hdown hleast)
  · exact exec_ldVxK_of_none x (keySelect_of_none_pressed hup)

end Sys2Proof.Machine
end

section
/-! PROOFS. The invariant (10_state.md R31, R34, R35, R43): a completed instruction keeps each bound, so every step keeps
the invariant, and so does every session from its first reset on (70_reset_and_hazards.md R147, R148). -/

namespace Sys2Proof.Machine

section
variable {s t : State}

/-! ### The bounds of what an instruction writes -/

theorem toNat_addrWord_le (nnn : Addr) : (addrWord nnn).toNat ≤ 0xFFF := by
  rw [addrWord, BitVec.toNat_setWidth]
  have := nnn.isLt
  omega

/-- The target of JP V0 is the exact sum (R34, R96). -/
theorem toNat_indexedTarget (nnn : Addr) (b : Byte) : (indexedTarget nnn b).toNat = nnn.toNat + b.toNat := by
  have hn := nnn.isLt
  have hb := b.isLt
  simp only [indexedTarget, addrWord, byteWord, BitVec.toNat_add, BitVec.toNat_setWidth]
  omega

theorem toNat_glyphIndex (b : Byte) : (glyphIndex b).toNat = fontBase + 5 * b.toNat := by
  have hb := b.isLt
  simp only [glyphIndex, glyphAddress, BitVec.toNat_ofNat, fontBase]
  omega

/-- The advance by 2 of a fetchable address. -/
theorem toNat_add_two {a : Word} (h : a.toNat ≤ 0xFFF0) : (a + 2).toNat = a.toNat + 2 := by
  rw [BitVec.toNat_add]
  show (a.toNat + 2) % 65536 = _
  omega

/-- The way back by 2 from an advanced address. -/
theorem toNat_sub_two {a : Word} (h : 2 ≤ a.toNat) : (a - 2).toNat = a.toNat - 2 :=
  BitVec.toNat_sub_of_le (BitVec.le_def.2 h)

/-! ### A completed instruction keeps the bounds -/

theorem completed_mem_wf {i : Instr} (hraises : raises i s = none) (h : s.mem.wf = true) :
    (completed i s).mem.wf = true := by
  cases i with
  | ldB x =>
    have hin : s.iReg.toNat + 2 ≤ 0xFFF := by simpa [raises] using hraises
    exact Memory.wf_putFrom h (.inr (by rw [length_bcdDigits, Config.memSize]; omega))
  | storeRegs x =>
    have hin : s.iReg.toNat + x.val ≤ 0xFFF := by simpa [raises] using hraises
    exact Memory.wf_putFrom h (.inr (by rw [State.length_regBlock, Config.memSize]; omega))
  | _ => exact h

theorem completed_iReg_le {i : Instr} (hraises : raises i s = none) (h : s.iReg.toNat ≤ 0xFFF) :
    (completed i s).iReg.toNat ≤ 0xFFF := by
  cases i with
  | ldI nnn => exact toNat_addrWord_le nnn
  | addI x =>
    show (indexSum s.iReg (s.reg x)).toNat ≤ 0xFFF
    rw [toNat_indexSum]
    omega
  | ldF x =>
    have hdigit : (s.reg x).toNat ≤ 0xF := by simpa [raises] using hraises
    show (glyphIndex (s.reg x)).toNat ≤ 0xFFF
    rw [toNat_glyphIndex, fontBase]
    omega
  | _ => exact h

/-- `PC` after an instruction fetched below 0xFFF: a skip reaches 0x1002, JP V0 0x10FE (R34). -/
theorem pcAfter_le {i : Instr} (hraises : raises i s = none) (hpos : 2 ≤ s.pc.toNat) (hpc : s.pc.toNat ≤ 0x1000)
    (hstack : ∀ j : Fin 16, j.val < s.sp.val → s.stack[j].toNat ≤ 0x1000) : (pcAfter i s).toNat ≤ 0x10FE := by
  have hskip : (s.pc + 2).toNat ≤ 0x10FE := by rw [toNat_add_two (by omega)]; omega
  have hstay : s.pc.toNat ≤ 0x10FE := by omega
  cases i with
  | jp nnn | call nnn => exact (toNat_addrWord_le nnn).trans (by omega)
  | jpV0 nnn =>
    show (indexedTarget nnn (s.reg 0)).toNat ≤ 0x10FE
    rw [toNat_indexedTarget]
    have hn := nnn.isLt
    have hb := (s.reg 0).isLt
    omega
  | ret =>
    have hsp : s.sp.val ≠ 0 := by simpa [raises] using hraises
    show (s.entry (s.sp.val - 1)).toNat ≤ 0x10FE
    rw [State.entry_of_lt s (by omega)]
    exact (hstack ⟨s.sp.val - 1, by omega⟩ (by simp; omega)).trans (by omega)
  | seByte | sneByte | seReg | sneReg | skp =>
    simp only [pcAfter]
    split
    · exact hskip
    · exact hstay
  | sknp =>
    simp only [pcAfter]
    split
    · exact hstay
    · exact hskip
  | ldVxK x =>
    simp only [pcAfter]
    split
    · rw [toNat_sub_two hpos]; omega
    · exact hstay
  | _ => exact hstay

/-- CALL pushes the advanced `PC`, which is at most 0x1000 (R91). -/
theorem completed_stack_le {i : Instr} (hpc : s.pc.toNat ≤ 0x1000)
    (h : ∀ j : Fin 16, j.val < s.sp.val → s.stack[j].toNat ≤ 0x1000) (j : Fin 16)
    (hj : j.val < (completed i s).sp.val) : (completed i s).stack[j].toNat ≤ 0x1000 := by
  cases i with
  | ret => exact h j (Nat.lt_of_lt_of_le hj (Nat.sub_le ..))
  | call nnn =>
    have hle : j.val < s.sp.val + 1 := Nat.lt_of_lt_of_le hj (Nat.mod_le ..)
    show (s.stack.setIfInBounds s.sp.val s.pc)[j.val].toNat ≤ 0x1000
    rw [Vector.getElem_setIfInBounds]
    split
    · exact hpc
    · exact h j (by omega)
  | _ => exact h j hj

/-! ### The status -/

theorem statusFits_of_run (h : s.status = .run) : s.statusFits = true := by
  simp only [State.statusFits, h]

theorem statusFits_of_waitKey {x : RegIdx} (h : s.status = .waitKey x) : s.statusFits = fetchOk s.pc := by
  simp only [State.statusFits, h]

theorem statusFits_of_fault {r : FaultRecord} (h : s.status = .fault r) : s.statusFits = decide (r.pc = s.pc) := by
  simp only [State.statusFits, h]

/-! ### Steps keep the invariant -/

theorem inv_completed_advancePc {i : Instr} (h : s.Inv) (hrun : s.status = .run) (hok : fetchOk s.pc = true)
    (hraises : raises i s = none) : (completed i s.advancePc).Inv := by
  obtain ⟨hmem, hi, -, hstack, -⟩ := h
  have htop : s.pc.toNat ≤ 0xFFE := ((fetchOk_iff s.pc).1 hok).2
  have hadv : s.advancePc.pc.toNat = s.pc.toNat + 2 := toNat_add_two (by omega)
  rw [← raises_advancePc] at hraises
  refine ⟨completed_mem_wf hraises hmem, completed_iReg_le hraises hi, ?pc, completed_stack_le (by omega) hstack, ?status⟩
  case pc =>
    rw [completed_pc]
    exact pcAfter_le hraises (by omega) (by omega) hstack
  case status =>
    obtain hsame | ⟨x, rfl, hkeys, hwait⟩ := completed_status_cases s.advancePc i
    · exact statusFits_of_run (hsame.trans hrun)
    · have hback : (completed (.ldVxK x) s.advancePc).pc = s.pc := by
        rw [completed_pc, pcAfter, if_pos hkeys, State.advancePc_pc, BitVec.add_sub_cancel]
      rw [statusFits_of_waitKey hwait, hback, hok]

theorem inv_waitStep {x : RegIdx} (h : s.Inv) (hwait : s.status = .waitKey x) : (waitStep x s).Inv := by
  cases hsel : keySelect s.keys with
  | none => rwa [waitStep_of_none hsel]
  | some k =>
    obtain ⟨hmem, hi, -, hstack, hfits⟩ := h
    rw [statusFits_of_waitKey hwait, fetchOk_iff] at hfits
    rw [waitStep_of_some hsel]
    refine ⟨hmem, hi, ?_, hstack, statusFits_of_run rfl⟩
    show (s.pc + 2).toNat ≤ 0x10FE
    rw [toNat_add_two (by omega)]
    omega

theorem inv_engineStep (h : s.Inv) (hstep : engineStep s = .next t) : t.Inv := by
  cases hst : s.status with
  | fault r =>
    obtain rfl := Host.Outcome.next.inj ((engineStep_of_fault hst).symm.trans hstep)
    exact h
  | waitKey x =>
    obtain rfl := Host.Outcome.next.inj ((engineStep_of_waitKey hst).symm.trans hstep)
    exact inv_waitStep h hst
  | run =>
    obtain ⟨r, -, hpc, -, rfl⟩ | ⟨-, i, hok, -, hraises, rfl⟩ := engineStep_run_eq_next hst hstep
    · obtain ⟨hmem, hi, hpcBound, hstack, -⟩ := h
      exact ⟨hmem, hi, hpcBound, hstack, by rw [statusFits_of_fault rfl]; exact decide_eq_true hpc⟩
    · exact inv_completed_advancePc h hst hok hraises

/-- The invariant speaks of memory, `I`, `PC`, the stack and the status alone. -/
theorem inv_congr (h : s.Inv) (hmem : t.mem = s.mem) (hi : t.iReg = s.iReg) (hpc : t.pc = s.pc)
    (hstack : t.stack = s.stack) (hsp : t.sp = s.sp) (hstatus : t.status = s.status) : t.Inv := by
  obtain ⟨h1, h2, h3, h4, h5⟩ := h
  refine ⟨by rwa [hmem], by rwa [hi], by rwa [hpc], by rwa [hstack, hsp], ?_⟩
  rwa [State.statusFits, hstatus, hpc]

/-! ### Sessions keep the invariant -/

theorem inv_resetOp (s : State) {m : Memory} (h : m.wf = true) : (s.resetOp m).Inv :=
  ⟨by rw [State.resetOp_mem]; exact loadFont_wf h, by simp, by simp, by simp, statusFits_of_run (s.resetOp_status m)⟩

theorem inv_tick (h : s.Inv) : (tick s).Inv := inv_congr h rfl rfl rfl rfl rfl rfl

theorem inv_stepWith (keys : BitVec 16) (rnd : Byte) (h : s.Inv) : (stepWith keys rnd s).Inv := by
  obtain ⟨t, ht⟩ := exists_engineStep_eq_next (s.withInputs keys rnd)
  have hinputs : (s.withInputs keys rnd).Inv := inv_congr h rfl rfl rfl rfl rfl rfl
  rw [stepWith_of_next ht]
  exact inv_engineStep hinputs ht

/-- What a session keeps in each phase: nothing before the reset, the invariant from then on, and before the first step
status RUN, so that the host may set `PC`. -/
def Phase.Keeps (p : Phase) (s : State) : Prop :=
  match p with
  | .constructed => True
  | .ready => s.Inv ∧ s.status = .run
  | .running => s.Inv

theorem Phase.Keeps.inv {p : Phase} (h : p.Keeps s) (hp : p ≠ .constructed) : s.Inv := by
  cases p with
  | constructed => exact absurd rfl hp
  | ready => exact h.1
  | running => exact h

/-- An admitted operation takes what its phase keeps to what the next phase keeps (R147, R148). -/
theorem Phase.keeps_operate {p q : Phase} {op : HostOp} (h : p.Keeps s) (haccept : p.accept op = some q)
    (hwf : ∀ m, op = .reset m → m.wf = true) (hop : operate op s = .ok t) : q.Keeps t := by
  cases op with
  | reset m =>
    obtain rfl := Except.ok.inj hop
    cases p <;> cases haccept <;> exact ⟨inv_resetOp s (hwf m rfl), s.resetOp_status m⟩
  | loadProgram bytes offset =>
    obtain ⟨-, hfits, rfl⟩ := loadProgram_eq_ok hop
    cases p <;> cases haccept
    obtain ⟨⟨hmem, hi, hpc, hstack, hstatus⟩, hrun⟩ := h
    exact ⟨⟨Memory.wf_putFrom hmem (.inr hfits), hi, hpc, hstack, hstatus⟩, hrun⟩
  | setPc a =>
    obtain ⟨ha, rfl⟩ := writePc_eq_ok hop
    cases p <;> cases haccept
    obtain ⟨⟨hmem, hi, -, hstack, -⟩, hrun⟩ := h
    refine ⟨⟨hmem, hi, ?_, hstack, statusFits_of_run hrun⟩, hrun⟩
    show (BitVec.ofNat 16 a).toNat ≤ 0x10FE
    rw [BitVec.toNat_ofNat]
    omega
  | step keys rnd =>
    obtain rfl := Except.ok.inj hop
    cases p <;> cases haccept
    · exact inv_stepWith keys rnd h.1
    · exact inv_stepWith keys rnd h
  | tick =>
    obtain rfl := Except.ok.inj hop
    cases p <;> cases haccept
    · exact ⟨inv_tick h.1, h.2⟩
    · exact inv_tick h

theorem Phase.accept_ne_constructed {p q : Phase} {op : HostOp} (h : p.accept op = some q) : q ≠ .constructed := by
  cases p <;> cases op <;> cases h <;> exact nofun

/-- A session with an operation, or one that goes on after a reset, ends in the invariant. -/
theorem inv_of_session {p : Phase} {ops : List HostOp} (h : p.Keeps s) (hstarts : p ≠ .constructed ∨ ops ≠ [])
    (hwf : ∀ m, HostOp.reset m ∈ ops → m.wf = true) (hsession : session p s ops = some t) : t.Inv := by
  induction ops generalizing p s with
  | nil =>
    obtain rfl := Option.some.inj hsession
    exact h.inv (hstarts.resolve_right (· rfl))
  | cons op ops ih =>
    obtain ⟨q, u, haccept, hop, hrest⟩ := session_cons_eq_some hsession
    have hkeeps : q.Keeps u := Phase.keeps_operate h haccept (fun m hm => hwf m (by simp [hm])) hop
    exact ih hkeeps (.inl (Phase.accept_ne_constructed haccept)) (fun m hm => hwf m (List.mem_cons_of_mem _ hm)) hrest

end

/-! ### The obligations -/

/-- Settles O19: what the host hands over is no part of the invariant, and each case of the engine's step keeps it. -/
theorem stepKeepsTheInvariant : Obligations.StepKeepsTheInvariant := by
  unfold Obligations.StepKeepsTheInvariant
  intro s t h hstep
  have hreceived : s.receiveInput.Inv := inv_congr h (by simp) (by simp) (by simp) (by simp) (by simp) (by simp)
  exact inv_engineStep hreceived hstep

/-- Settles O20: the stack is empty, and the other bounds are evaluated. -/
theorem resetMeetsTheInvariant : Obligations.ResetMeetsTheInvariant := by
  unfold Obligations.ResetMeetsTheInvariant
  exact ⟨reset_mem_wf, by decide, by decide, fun j hj => absurd hj (Nat.not_lt_zero _), statusFits_of_run rfl⟩

/-- Settles O21, by induction over the session. -/
theorem sessionsKeepTheInvariant : Obligations.SessionsKeepTheInvariant := by
  unfold Obligations.SessionsKeepTheInvariant
  exact fun s t ops hne hwf hsession => inv_of_session (p := .constructed) trivial (.inr hne) hwf hsession

end Sys2Proof.Machine
end

section
/-! PROOFS. The ended run (70_reset_and_hazards.md R156): it is at rest under steps and ticks, FAULT is at rest too, and a
wait goes on when a key is pressed. -/

namespace Sys2Proof.Machine

section
variable {s : State}

/-- What an ended run stands at: status RUN, and at `PC` the word of the jump to `PC` itself. -/
theorem ended_iff (s : State) :
    s.ended = true ↔ s.status = .run ∧ fetchOk s.pc = true ∧ s.mem.wordAt s.pc.toNat = 0x1000#16 + s.pc := by
  simp only [State.ended, Bool.and_eq_true, beq_iff_eq, and_assoc]

theorem ended_congr {t : State} (h : s.ended = true) (hstatus : t.status = s.status) (hpc : t.pc = s.pc)
    (hmem : t.mem = s.mem) : t.ended = true := by
  rwa [State.ended, hstatus, hpc, hmem]

theorem not_ended_of_status_ne_run (h : s.status ≠ .run) : s.ended = false := by
  rw [← Bool.not_eq_true, ended_iff]
  exact fun hended => h hended.1

/-- A fetchable address is its own address field, widened (R63, R65). -/
theorem addrWord_setWidth {a : Word} (h : a.toNat ≤ 0xFFE) : addrWord (a.setWidth 12) = a := by
  apply BitVec.eq_of_toNat_eq
  rw [addrWord, BitVec.toNat_setWidth, BitVec.toNat_setWidth]
  omega

/-- The word `1nnn` with `nnn = a` is the jump to `a`. -/
theorem decodeWord_jump_to {a : Word} (h : a.toNat ≤ 0xFFE) : decodeWord (0x1000#16 + a) = some (.jp (a.setWidth 12)) := by
  have hword : 0x1000#16 + a = wordN 0x1 (a.setWidth 12) := by
    apply BitVec.eq_of_toNat_eq
    simp only [wordN, BitVec.toNat_add, BitVec.toNat_ofNat, BitVec.toNat_setWidth]
    omega
  rw [hword, decodeWord_wordN_1]

/-- A step of an ended run jumps to the address it is at. -/
theorem engineStep_of_ended (h : s.ended = true) : engineStep s = .next s := by
  obtain ⟨hrun, hok, hword⟩ := (ended_iff s).1 h
  have htop : s.pc.toNat ≤ 0xFFE := ((fetchOk_iff s.pc).1 hok).2
  have hdec : decodeWord (s.mem.wordAt s.pc.toNat) = some (.jp (s.pc.setWidth 12)) := by
    rw [hword, decodeWord_jump_to htop]
  rw [engineStep_of_decodeWord hrun hok hdec]
  show Host.Outcome.next (s.advancePc.setPc (addrWord (s.pc.setWidth 12))) = _
  rw [addrWord_setWidth htop]
  rfl

theorem stepWith_of_ended (h : s.ended = true) (keys : BitVec 16) (rnd : Byte) :
    stepWith keys rnd s = s.withInputs keys rnd :=
  stepWith_of_next (engineStep_of_ended (ended_congr h rfl rfl rfl))

/-- `t` is `s` under steps and `n` ticks of an ended run: the inputs and the timers apart, all is as before. -/
def RestsAfter (s : State) (n : Nat) (t : State) : Prop :=
  t.ended = true ∧ t = { s with dt := t.dt, st := t.st, keys := t.keys, rnd := t.rnd } ∧
    t.dt.toNat = s.dt.toNat - n ∧ t.st.toNat = s.st.toNat - n

/-- Any sequence of steps and ticks leaves an ended run at rest. -/
theorem session_of_ended (h : s.ended = true) (ops : List HostOp)
    (hops : ∀ op ∈ ops, op = .tick ∨ ∃ k r, op = .step k r) :
    ∃ t, session .running s ops = some t ∧ RestsAfter s (ops.count .tick) t := by
  induction ops generalizing s with
  | nil => exact ⟨s, rfl, h, rfl, rfl, rfl⟩
  | cons op ops ih =>
    have htail : ∀ op ∈ ops, op = .tick ∨ ∃ k r, op = .step k r := fun op hop => hops op (List.mem_cons_of_mem _ hop)
    obtain rfl | ⟨k, r, rfl⟩ := hops op List.mem_cons_self
    · obtain ⟨t, hses, hended, hsame, hdt, hst⟩ := ih (s := tick s) (ended_congr h rfl rfl rfl) htail
      rw [tick_dt, toNat_countDown] at hdt
      rw [tick_st, toNat_countDown] at hst
      refine ⟨t, hses, hended, hsame, ?_, ?_⟩
      · rw [List.count_cons_self]; omega
      · rw [List.count_cons_self]; omega
    · obtain ⟨t, hses, hended, hsame, hdt, hst⟩ := ih (s := s.withInputs k r) (ended_congr h rfl rfl rfl) htail
      rw [← stepWith_of_ended h] at hses
      rw [List.count_cons_of_ne (by simp)]
      exact ⟨t, hses, hended, hsame, hdt, hst⟩

end

/-- Settles O22: the jump to itself is at rest, FAULT answers the same state, and a pressed key ends the wait in RUN. -/
theorem endedRunStaysEnded : Obligations.EndedRunStaysEnded := by
  unfold Obligations.EndedRunStaysEnded
  refine ⟨fun s h => ⟨engineStep_of_ended h, fun ops hops => ?_⟩, fun s x hwait => ⟨?_, fun hkeys => ?_⟩,
    fun s r hfault => ⟨?_, engineStep_of_fault hfault⟩⟩
  · exact session_of_ended h ops hops
  · exact not_ended_of_status_ne_run (by simp [hwait])
  · obtain ⟨k, hk⟩ := Option.ne_none_iff_exists'.1 (mt keySelect_eq_none.1 hkeys)
    exact ⟨_, engineStep_of_waitKey hwait, by rw [waitStep_of_some hk]⟩
  · exact not_ended_of_status_ne_run (by simp [hfault])

end Sys2Proof.Machine
end

section
/-! PROOFS. Memory (20_memory.md sections 1, 2 and 8, 43_index_memory.md R114 to R117, 40_engine.md R84): the canonical form
decides the list, and what the loads and stores leave at every address and in every register. -/

namespace Sys2Proof.Machine

/-! ### The canonical form decides the list -/

theorem Memory.byteAt_of_forall_ne {m : Memory} {a : Nat} (h : ∀ c ∈ m, c.1 ≠ a) : m.byteAt a = absentByte a := by
  induction m with
  | nil => rfl
  | cons c m ih =>
    rw [List.forall_mem_cons] at h
    exact (if_neg h.1.symm).trans (ih h.2)

theorem Memory.byteAt_head (k : Nat) (b : Byte) (m : Memory) : Memory.byteAt ((k, b) :: m) k = b := if_pos rfl

/-- Below its first address a memory in canonical form lists nothing. -/
theorem Memory.byteAt_of_lt_head {k a : Nat} {b : Byte} {m : Memory} (h : Memory.wf ((k, b) :: m) = true) (ha : a < k) :
    Memory.byteAt ((k, b) :: m) a = absentByte a := by
  obtain ⟨-, -, hrising, -⟩ := wf_cons.1 h
  refine byteAt_of_forall_ne (List.forall_mem_cons.2 ⟨Nat.ne_of_gt ha, fun c hc => ?_⟩)
  exact Nat.ne_of_gt (Nat.lt_trans ha (hrising c hc))

/-- Where a memory lists an address, another that lists none up to it reads otherwise. -/
theorem Memory.not_readsAlike_of_absent {k : Nat} {b : Byte} {m m' : Memory} (h : Memory.wf ((k, b) :: m) = true)
    (habsent : m'.byteAt k = absentByte k) : ¬ ∀ a, Memory.byteAt ((k, b) :: m) a = m'.byteAt a := by
  obtain ⟨-, hb, -, -⟩ := wf_cons.1 h
  exact fun hsame => hb (((byteAt_head k b m).symm.trans (hsame k)).trans habsent)

theorem Memory.eq_of_readsAlike {m m' : Memory} (h : m.wf = true) (h' : m'.wf = true)
    (hsame : ∀ a, m.byteAt a = m'.byteAt a) : m = m' := by
  induction m generalizing m' with
  | nil =>
    cases m' with
    | nil => rfl
    | cons c' m' => exact absurd (fun a => (hsame a).symm) (not_readsAlike_of_absent h' rfl)
  | cons c m ih =>
    obtain ⟨k, b⟩ := c
    cases m' with
    | nil => exact absurd hsame (not_readsAlike_of_absent h rfl)
    | cons c' m' =>
      obtain ⟨k', b'⟩ := c'
      rcases Nat.lt_trichotomy k k' with hlt | rfl | hgt
      · exact absurd hsame (not_readsAlike_of_absent h (byteAt_of_lt_head h' hlt))
      · obtain ⟨-, -, hrising, hm⟩ := wf_cons.1 h
        obtain ⟨-, -, hrising', hm'⟩ := wf_cons.1 h'
        have hb : b = b' := by simpa only [byteAt_head] using hsame k
        have htail : m = m' := ih hm hm' fun a => by
          by_cases ha : a = k
          · rw [ha, byteAt_of_forall_ne fun c hc => Nat.ne_of_gt (hrising c hc),
              byteAt_of_forall_ne fun c hc => Nat.ne_of_gt (hrising' c hc)]
          · simpa only [byteAt, if_neg ha] using hsame a
        rw [hb, htail]
      · exact absurd (fun a => (hsame a).symm) (not_readsAlike_of_absent h' (byteAt_of_lt_head h hgt))

/-- Settles O25. -/
theorem canonicalMemoriesReadAlikeAreEqual : Obligations.CanonicalMemoriesReadAlikeAreEqual := by
  unfold Obligations.CanonicalMemoriesReadAlikeAreEqual
  exact fun m m' => Memory.eq_of_readsAlike

/-! ### A group of bytes, read back -/

theorem Memory.byteAt_putFrom_inside (m : Memory) (a : Nat) {bs : List Byte} {j : Nat} (h : j < bs.length) :
    (m.putFrom a bs).byteAt (a + j) = bs.getD j 0 := by
  rw [byteAt_putFrom, if_pos (by omega), Nat.add_sub_cancel_left]

/-- The block V0 to Vx, read back from memory (R116). -/
theorem byteAt_storedBlock (s : State) {x r : RegIdx} (h : r ≤ x) :
    (s.mem.putFrom s.iReg.toNat (s.regBlock x)).byteAt (s.iReg.toNat + r.val) = s.reg r := by
  rw [Memory.byteAt_putFrom_inside _ _ (by rw [State.length_regBlock]; exact Nat.lt_succ_of_le h), s.getD_regBlock x r h]

/-- The three decimal digits, read back from memory (R115). -/
theorem toNat_byteAt_putFrom_bcdDigits (m : Memory) (a : Nat) (b : Byte) (c : Nat) :
    ((m.putFrom a (bcdDigits b)).byteAt c).toNat =
      if c = a then b.toNat / 100
      else if c = a + 1 then b.toNat / 10 % 10
      else if c = a + 2 then b.toNat % 10
      else (m.byteAt c).toNat := by
  have hb : b.toNat < 256 := b.isLt
  have hdigit {d : Nat} (hd : d < 256) : (BitVec.ofNat 8 d).toNat = d := Nat.mod_eq_of_lt hd
  simp only [bcdDigits, Memory.putFrom, Memory.byteAt_put, apply_ite BitVec.toNat]
  rw [hdigit (by omega), hdigit (by omega), hdigit (by omega)]
  split_ifs <;> omega

/-! ### The obligations -/

/-- Settles O3: the three outcomes are the branches of the load, and the loaded bytes are a group of writes. -/
theorem loadProgramCopiesOrFails : Obligations.LoadProgramCopiesOrFails := by
  unfold Obligations.LoadProgramCopiesOrFails
  refine fun bytes offset s =>
    ⟨fun hoffset => if_pos hoffset, fun ⟨hlo, hhi, hsize⟩ => ?large, fun ⟨hlo, hhi, hsize⟩ => ?fits⟩
  case large =>
    rw [loadProgram, if_neg (by simp only [Config.programStart, Config.memTop]; omega), if_pos hsize]
  case fits =>
    have hok : loadProgram bytes offset s = .ok (s.setMem (s.mem.putFrom offset bytes)) := by
      rw [loadProgram, if_neg (by simp only [Config.programStart, Config.memTop]; omega),
        if_neg (by simp only [Config.memSize]; omega)]
    exact ⟨_, hok, rfl, fun j hj => Memory.byteAt_putFrom_inside _ _ hj, fun a ha => Memory.byteAt_putFrom_outside _ ha⟩

/-- Settles O26: the store leaves the two registers at `PC`, and a cycle fetches them. -/
theorem storedBytesAreFetchedNext : Obligations.StoredBytesAreFetchedNext := by
  unfold Obligations.StoredBytesAreFetchedNext
  intro x s t k hk i hrun hfits hstore hpc heven hdec
  obtain rfl := Host.Outcome.next.inj ((exec_storeRegs_of_le x hfits).symm.trans hstore)
  have hok : fetchOk s.pc = true := (fetchOk_iff s.pc).2 ⟨heven, by rw [State.setMem_pc] at hpc; omega⟩
  have hword : (s.mem.putFrom s.iReg.toNat (s.regBlock x)).wordAt s.pc.toNat =
      wordOfBytes (s.reg ⟨k, by omega⟩) (s.reg ⟨k + 1, by omega⟩) := by
    rw [State.setMem_pc] at hpc
    rw [Memory.wordAt, hpc, Nat.add_assoc]
    exact congrArg₂ wordOfBytes (byteAt_storedBlock s (r := ⟨k, by omega⟩) (by rw [Fin.le_def]; show k ≤ _; omega))
      (byteAt_storedBlock s (r := ⟨k + 1, by omega⟩) hk)
  exact engineStep_of_decodeWord (s := s.setMem (s.mem.putFrom s.iReg.toNat (s.regBlock x))) hrun hok
    ((congrArg decodeWord hword).trans hdec)

/-- Settles O42. -/
theorem glyphIndexOrFault : Obligations.GlyphIndexOrFault := by
  unfold Obligations.GlyphIndexOrFault
  refine ⟨fun x => decodeWord_wordK_F x 0x29, fun x s => ⟨fun hle => ?_, fun hgt => ?_⟩⟩
  · exact ⟨_, exec_ldF_of_le x hle, rfl, toNat_glyphIndex _⟩
  · rw [exec_ldF_of_gt x hgt, byteWord_eq_ofNat]

/-- Settles O43: the group of three digits is written, and each address is read back. -/
theorem bcdStoresThreeDigits : Obligations.BcdStoresThreeDigits := by
  unfold Obligations.BcdStoresThreeDigits
  refine ⟨fun x => decodeWord_wordK_F x 0x33, fun x s => ⟨fun hle => ?_, exec_ldB_of_gt x⟩⟩
  exact ⟨_, exec_ldB_of_le x hle, rfl, toNat_byteAt_putFrom_bcdDigits s.mem s.iReg.toNat (s.reg x)⟩

/-- Settles O44. -/
theorem storeRegsCopiesTheBlock : Obligations.StoreRegsCopiesTheBlock := by
  unfold Obligations.StoreRegsCopiesTheBlock
  refine ⟨fun x => decodeWord_wordK_F x 0x55, fun x s => ⟨fun hle => ?_, exec_storeRegs_of_gt x⟩⟩
  refine ⟨_, exec_storeRegs_of_le x hle, rfl, fun r hr => byteAt_storedBlock s hr, fun a ha => ?_⟩
  exact Memory.byteAt_putFrom_outside _ (by rw [State.length_regBlock]; omega)

/-- Settles O45. -/
theorem loadRegsCopiesTheBlock : Obligations.LoadRegsCopiesTheBlock := by
  unfold Obligations.LoadRegsCopiesTheBlock
  refine ⟨fun x => decodeWord_wordK_F x 0x65, fun x s => ⟨fun hle => ?_, exec_loadRegs_of_gt x⟩⟩
  exact ⟨_, exec_loadRegs_of_le x hle, rfl, completed_loadRegs_reg s x⟩

end Sys2Proof.Machine
end

section
/-! PROOFS. The flag instructions (42_alu.md R98, R107 to R110), the last flow statements (41_flow.md R91, R96) and the key
skips (45_timers_input.md R123, R124). -/

namespace Sys2Proof.Machine

/-! ### Flags and byte arithmetic as numbers (R97) -/

theorem toNat_notBorrowFlag (a b : Byte) : (notBorrowFlag a b).toNat = if a.toNat ≥ b.toNat then 1 else 0 := by
  by_cases h : a.toNat ≥ b.toNat <;> simp [notBorrowFlag, flagByte, h]

theorem toNat_byte_sub (a b : Byte) : (a - b).toNat = (256 + a.toNat - b.toNat) % 256 := by
  have hb := b.isLt
  rw [BitVec.toNat_sub]
  omega

theorem toNat_shiftedOutRight (b : Byte) : (shiftedOutRight b).toNat = b.toNat % 2 := by
  rw [shiftedOutRight, BitVec.toNat_and]
  exact Nat.and_one_is_mod _

theorem toNat_shiftedOutLeft (b : Byte) : (shiftedOutLeft b).toNat = b.toNat / 128 := by
  have hb := b.isLt
  rw [shiftedOutLeft, BitVec.toNat_and, BitVec.toNat_ushiftRight, Nat.shiftRight_eq_div_pow]
  exact (Nat.and_one_is_mod _).trans (by omega)

theorem toNat_ushiftRight_one (b : Byte) : (b >>> 1).toNat = b.toNat / 2 := by
  rw [BitVec.toNat_ushiftRight, Nat.shiftRight_one]

theorem toNat_shiftLeft_one (b : Byte) : (b <<< 1).toNat = b.toNat * 2 % 256 := by
  rw [BitVec.toNat_shiftLeft, Nat.shiftLeft_eq]

/-! ### The two writes of a flag instruction (R98) -/

/-- An operand after the write of VF: the flag when it is VF. -/
theorem toNat_reg_setReg_vf (s : State) (flag : Byte) (x : RegIdx) :
    ((s.setReg vf flag).reg x).toNat = if x = 15 then flag.toNat else (s.reg x).toNat := by
  rw [State.reg_setReg, apply_ite BitVec.toNat]
  simp only [eq_comm]

/-- A register after the two writes. -/
theorem toNat_reg_setReg_setReg_vf (s : State) (x : RegIdx) (flag result : Byte) (r : RegIdx) :
    (((s.setReg vf flag).setReg x result).reg r).toNat =
      if r = x then result.toNat else if r = 15 then flag.toNat else (s.reg r).toNat := by
  rw [State.reg_setReg_setReg_vf, apply_ite BitVec.toNat, apply_ite BitVec.toNat]

/-! ### The obligations on the flag instructions -/

/-- Settles O37: each register is read back through the write of VF and the write of the difference. -/
theorem subFlagsNoBorrow : Obligations.SubFlagsNoBorrow := by
  unfold Obligations.SubFlagsNoBorrow
  refine ⟨fun x y => decodeWord_wordXY_8 x y 0x5, fun x y s => ⟨_, rfl, rfl, fun r => ?_⟩⟩
  rw [toNat_reg_setReg_setReg_vf, toNat_byte_sub, toNat_reg_setReg_vf, toNat_reg_setReg_vf, toNat_notBorrowFlag]

/-- Settles O38, as O37 with the operands exchanged. -/
theorem subnFlagsNoBorrow : Obligations.SubnFlagsNoBorrow := by
  unfold Obligations.SubnFlagsNoBorrow
  refine ⟨fun x y => decodeWord_wordXY_8 x y 0x7, fun x y s => ⟨_, rfl, rfl, fun r => ?_⟩⟩
  rw [toNat_reg_setReg_setReg_vf, toNat_byte_sub, toNat_reg_setReg_vf, toNat_reg_setReg_vf, toNat_notBorrowFlag]

/-- Settles O39: the bit shifted out is the last or the first of the eight, and the shift halves or doubles. -/
theorem shiftsByOneFlagTheBitOut : Obligations.ShiftsByOneFlagTheBitOut := by
  unfold Obligations.ShiftsByOneFlagTheBitOut
  refine ⟨fun x y => decodeWord_wordXY_8 x y 0x6, fun x y => decodeWord_wordXY_8 x y 0xE, fun x y s => ⟨?shr, ?shl⟩⟩
  case shr =>
    refine ⟨_, rfl, rfl, fun r => ?_⟩
    rw [toNat_reg_setReg_setReg_vf, toNat_ushiftRight_one, toNat_reg_setReg_vf, toNat_shiftedOutRight]
  case shl =>
    refine ⟨_, rfl, rfl, fun r => ?_⟩
    rw [toNat_reg_setReg_setReg_vf, toNat_shiftLeft_one, toNat_reg_setReg_vf, toNat_shiftedOutLeft]

/-! ### The obligations on flow and the key skips -/

/-- Settles O31: the pop reads the entry that the push wrote. -/
theorem callThenRetReturns : Obligations.CallThenRetReturns := by
  unfold Obligations.CallThenRetReturns
  intro nnn s t a hlt hcall
  obtain rfl := Host.Outcome.next.inj ((exec_call_of_lt nnn hlt).symm.trans hcall)
  refine ⟨_, exec_ret_of_pos (Nat.succ_pos s.sp.val), ?_, rfl⟩
  exact (State.entry_set s _ hlt s.pc rfl s.sp.val).trans (if_pos rfl)

/-- Settles O33. -/
theorem jpV0AddsV0 : Obligations.JpV0AddsV0 := by
  unfold Obligations.JpV0AddsV0
  refine ⟨fun nnn => ?_, fun nnn s => ⟨_, rfl, rfl, toNat_indexedTarget nnn (s.reg 0)⟩⟩
  simp [wordN_eq_encNnn, decodeWord]

/-- Class 0xE decodes by its function byte. -/
theorem decodeWord_wordK_E (x : RegIdx) (kk : Byte) : decodeWord (wordK 0xE x kk) = decodeClassE x kk := by
  simp [wordK_eq_encXkk, decodeWord]

/-- Settles O49. -/
theorem keySkipsReadTheSnapshot : Obligations.KeySkipsReadTheSnapshot := by
  unfold Obligations.KeySkipsReadTheSnapshot
  refine ⟨fun x => decodeWord_wordK_E x 0x9E, fun x => decodeWord_wordK_E x 0xA1, fun x s => ⟨fun hle => ?_, fun hgt => ?_⟩⟩
  · exact ⟨exec_skp_of_le x hle, exec_sknp_of_le x hle⟩
  · rw [← byteWord_eq_ofNat]
    exact ⟨exec_skp_of_gt x hgt, exec_sknp_of_gt x hgt⟩

end Sys2Proof.Machine
end

section
/-! PROOFS. Reset and the host's operations (70_reset_and_hazards.md R144, R145, 40_engine.md R86, 10_state.md R43). -/

namespace Sys2Proof.Machine

/-! ### Reset -/

/-- The font over a memory that lists nothing is what an unlisted address reads as (R40). -/
theorem loadFont_nil : loadFont [] = [] := by decide

/-- Settles O1: the font is a group of writes, read back inside and outside of it. -/
theorem resetSetsEveryPieceOfState : Obligations.ResetSetsEveryPieceOfState := by
  unfold Obligations.ResetSetsEveryPieceOfState
  intro s initial
  refine ⟨fun x => ?reg, rfl, rfl, rfl, rfl, rfl, fun py px => ?pixel, fun j hj => ?inside, fun a ha => ?outside, rfl, rfl⟩
  case reg => simp [State.reg]
  case pixel => exact Display.pixel_clear py px
  case inside =>
    rw [State.resetOp_mem]
    exact Memory.byteAt_putFrom_inside _ _ (by rwa [length_fontData])
  case outside =>
    rw [State.resetOp_mem]
    exact Memory.byteAt_putFrom_outside _ (by rwa [length_fontData])

/-- Settles O2: reset sets each field to the start state's value, and an unlisted address of the font reads as the font. -/
theorem startStateIsAResetState : Obligations.StartStateIsAResetState := by
  unfold Obligations.StartStateIsAResetState
  refine ⟨?_, fun d hd r hr => ?_⟩
  · rw [State.resetOp, loadFont_nil]
    rfl
  · show absentByte (fontBase + 5 * d + r) = _
    rw [absentByte, if_pos ⟨by omega, by simp only [fontSize]; omega⟩, Nat.add_assoc, Nat.add_sub_cancel_left]

/-! ### The status register (R43) -/

/-- Settles O5: the register is read off in each of the three statuses. -/
theorem statusRegisterShowsTheStatus : Obligations.StatusRegisterShowsTheStatus := by
  unfold Obligations.StatusRegisterShowsTheStatus
  refine ⟨rfl, fun x => ?wait, fun r => ?fault, fun q => ?exclusive⟩
  case wait => rw [Status.register, eq_ofNat_of_toNat (RegIdx.toNat_toNibble x)]
  case fault =>
    obtain ⟨kind, pc, word, info⟩ := r
    refine ⟨rfl, rfl, rfl, rfl, ?_, ?_, ?_, ?_, ?_⟩
    · cases kind <;> rfl
    · rintro rfl; exact ⟨rfl, rfl⟩
    · rintro w rfl; exact ⟨rfl, rfl⟩
    · rintro rfl; rfl
    · rintro w rfl; rfl
  case exclusive => cases q <;> simp [Status.register]

/-! ### The accessors inside their bounds (R86) -/

section
variable (s : State)

theorem readMem_of_le {n : Nat} (h : n ≤ 0xFFF) : readMem s n = .ok (s.mem.byteAt n) := by
  rw [readMem, memRead, if_neg (by simp only [Config.memTop]; omega)]

theorem writeMem_of_le {n : Nat} (h : n ≤ 0xFFF) (b : Byte) : writeMem s n b = .ok (s.setMem (s.mem.put n b)) := by
  rw [writeMem, memWrite, if_neg (by simp only [Config.memTop]; omega)]

theorem readStack_of_lt {n : Nat} (h : n < s.sp.val) : readStack s n = .ok (s.entry n) := by
  rw [readStack, dif_pos h, State.entry_of_lt s (by omega)]

theorem writeStack_of_lt {n : Nat} (h : n < s.sp.val) (w : Word) :
    ∃ hn : n < 16, writeStack s n w = .ok { s with stack := s.stack.set n w } :=
  ⟨by omega, dif_pos h⟩

theorem writeSp_of_le {n : Nat} (h : n ≤ 16) : writeSp s n = .ok { s with sp := ⟨n, by omega⟩ } := dif_pos _

theorem hostPush_of_lt (h : s.sp.val < 16) (w : Word) :
    hostPush s w = .ok { s with stack := s.stack.set s.sp.val w, sp := ⟨s.sp.val + 1, by omega⟩ } := by
  rw [hostPush, State.push_of_lt h]

theorem hostPop_of_pos (h : 0 < s.sp.val) :
    hostPop s = .ok (s.entry (s.sp.val - 1), { s with sp := ⟨s.sp.val - 1, by omega⟩ }) := by
  rw [hostPop, State.pop_of_pos h, State.entry_of_lt s (by omega)]

theorem readPixel_val (py : Fin 32) (px : Fin 64) : readPixel s py.val px.val = .ok (s.disp.pixel py px) :=
  dif_pos ⟨py.isLt, px.isLt⟩

theorem writePixel_val (py : Fin 32) (px : Fin 64) (on : Bool) :
    writePixel s py.val px.val on = .ok (s.setDisp (s.disp.setPixel py px on)) :=
  dif_pos ⟨py.isLt, px.isLt⟩

/-! ### The accessors outside their bounds -/

theorem readMem_of_gt {n : Nat} (h : n > 0xFFF) : readMem s n = accessorError := by
  rw [readMem, memRead, if_pos h]

theorem writeMem_of_gt {n : Nat} (h : n > 0xFFF) (b : Byte) : writeMem s n b = accessorError := by
  rw [writeMem, memWrite, if_pos h]

theorem hostPush_of_full (h : s.sp.val = 16) (w : Word) : hostPush s w = accessorError := by
  rw [hostPush, State.push_eq_none.2 h]

theorem hostPop_of_empty (h : s.sp.val = 0) : hostPop s = accessorError := by
  rw [hostPop, State.pop_eq_none.2 h]

end

/-- Settles O4, accessor by accessor: inside its bound each is one read or one write, outside it the error. -/
theorem accessorsAreBoundsChecked : Obligations.AccessorsAreBoundsChecked := by
  unfold Obligations.AccessorsAreBoundsChecked
  intro s n m b w on
  refine ⟨fun x => ⟨dif_pos x.isLt, dif_pos x.isLt⟩, fun h => ⟨dif_neg (by omega), dif_neg (by omega)⟩,
    fun h => ⟨readMem_of_le s h, _, writeMem_of_le s h b, rfl, fun a => Memory.byteAt_put s.mem n a b⟩,
    fun h => ⟨readMem_of_gt s h, writeMem_of_gt s h b⟩, rfl, rfl, rfl, rfl,
    fun h => ⟨if_pos h, if_pos h⟩, fun h => ⟨if_neg (by omega), if_neg (by omega)⟩,
    fun h => ⟨readStack_of_lt s h, ?writeStack⟩, fun h => ⟨dif_neg (by omega), dif_neg (by omega)⟩,
    fun h => ⟨_, writeSp_of_le s h, rfl, rfl⟩, fun h => dif_neg (by omega),
    fun h => hostPush_of_full s h w, hostPop_of_empty s, fun h => ?push, fun h => ?pop, rfl, rfl,
    fun py px => ⟨readPixel_val s py px, _, writePixel_val s py px on, rfl, fun qy qx => Display.pixel_setPixel ..⟩,
    fun h => ⟨dif_neg (by omega), dif_neg (by omega)⟩,
    fun h => if_pos (Nat.lt_succ_of_le h), fun h => if_neg (by simp only [Config.numKeys]; omega)⟩
  case writeStack =>
    obtain ⟨hn, hwrite⟩ := writeStack_of_lt s h w
    exact ⟨_, hwrite, rfl, State.entry_set s _ hn w rfl⟩
  case push => exact ⟨_, hostPush_of_lt s h w, rfl, rfl, State.entry_set s _ h w rfl⟩
  case pop => exact ⟨_, hostPop_of_pos s h, rfl, Nat.sub_add_cancel h⟩

end Sys2Proof.Machine
end

section
/-! PROOFS. DRW (44_display.md R120, R122): every loop of a drawing flips the pixels it covers, each once, and collides where
one of them was on. -/

namespace Sys2Proof.Machine

/-! ### A drawing flips the pixels it covers -/

/-- From `cv` to `w` exactly the covered pixels have been flipped, each once, and a covered pixel that was on collides. -/
structure Canvas.Flips (cv w : Canvas) (covers : Fin 32 → Fin 64 → Bool) : Prop where
  pixel : ∀ py px, w.disp.pixel py px = (cv.disp.pixel py px ^^ covers py px)
  collide : w.collide = true ↔ cv.collide = true ∨ ∃ py px, covers py px = true ∧ cv.disp.pixel py px = true

section
variable {cv w u : Canvas} {c d : Fin 32 → Fin 64 → Bool}

theorem Canvas.Flips.congr (h : cv.Flips w c) (hcd : ∀ py px, c py px = d py px) : cv.Flips w d :=
  (funext fun py => funext (hcd py) : c = d) ▸ h

/-- Nothing drawn, nothing covered. -/
theorem Canvas.flips_self (cv : Canvas) (h : ∀ py px, c py px = false) : cv.Flips cv c :=
  ⟨fun py px => by rw [h, Bool.xor_false], by simp [h]⟩

/-- Two drawings of disjoint parts, one after the other, are a drawing of both. -/
theorem Canvas.Flips.trans (hc : cv.Flips w c) (hd : w.Flips u d) (hdisjoint : ∀ py px, c py px = true → d py px = false) :
    cv.Flips u fun py px => c py px || d py px where
  pixel py px := by
    rw [hd.pixel, hc.pixel, Bool.xor_assoc]
    cases hcov : c py px with
    | true => rw [hdisjoint py px hcov]; rfl
    | false => rw [Bool.false_xor, Bool.false_or]
  collide := by
    have hsame {py px} (hcov : d py px = true) : w.disp.pixel py px = cv.disp.pixel py px := by
      cases hc' : c py px with
      | true => simp [hdisjoint py px hc'] at hcov
      | false => rw [hc.pixel, hc', Bool.xor_false]
    rw [hd.collide, hc.collide, or_assoc]
    refine or_congr_right ⟨?_, ?_⟩
    · rintro (⟨py, px, hcov, hon⟩ | ⟨py, px, hcov, hon⟩)
      · exact ⟨py, px, by rw [hcov, Bool.true_or], hon⟩
      · exact ⟨py, px, by rw [hcov, Bool.or_true], (hsame hcov).symm.trans hon⟩
    · rintro ⟨py, px, hcov, hon⟩
      obtain hcov | hcov := Bool.or_eq_true_iff.1 hcov
      · exact .inl ⟨py, px, hcov, hon⟩
      · exact .inr ⟨py, px, hcov, (hsame hcov).trans hon⟩

end

/-! ### The loops: one bit, one row, all rows (R122) -/

theorem Canvas.flips_flip (cv : Canvas) (py : Fin 32) (px : Fin 64) :
    cv.Flips (cv.flip py px) fun qy qx => decide (qy = py ∧ qx = px) where
  pixel qy qx := by
    rw [Canvas.pixel_flip]
    split
    · next h => simp [h.1, h.2]
    · next h => simp [h]
  collide := by simp

/-- Bit `c` of a sprite byte drawn at column `x0` covers column `qx` (R120). -/
def bitCovers (b : Byte) (x0 : Nat) (qx : Fin 64) (c : Nat) : Bool :=
  b.getLsbD (7 - c) && decide ((x0 + c) % 64 = qx.val)

theorem bitCovers_eq_true {b : Byte} {x0 c : Nat} {qx : Fin 64} (h : bitCovers b x0 qx c = true) :
    (x0 + c) % 64 = qx.val :=
  of_decide_eq_true (Bool.and_eq_true_iff.1 h).2

theorem Canvas.flips_drawBit (cv : Canvas) (py : Fin 32) (x0 : Nat) (b : Byte) (c : Nat) :
    cv.Flips (cv.drawBit py x0 b c) fun qy qx => decide (qy = py) && bitCovers b x0 qx c := by
  unfold drawBit
  split
  · next hbit =>
    rw [spriteBit] at hbit
    refine (cv.flips_flip py _).congr fun qy qx => ?_
    have hcolumn : qx = Fin.ofNat 64 (x0 + c) ↔ (x0 + c) % 64 = qx.val := Fin.ext_iff.trans eq_comm
    rw [bitCovers, hbit, Bool.true_and, Bool.decide_and, decide_eq_decide.2 hcolumn]
  · next hbit =>
    rw [spriteBit, Bool.not_eq_true] at hbit
    exact cv.flips_self fun qy qx => by rw [bitCovers, hbit, Bool.false_and, Bool.and_false]

/-- The bits of a row fall on different columns, so no pixel is flipped twice. -/
theorem Canvas.flips_foldl_drawBit (cv : Canvas) (py : Fin 32) (x0 : Nat) (b : Byte) {cs : List Nat}
    (hcs : cs.Pairwise fun c d => (x0 + c) % 64 ≠ (x0 + d) % 64) :
    cv.Flips (cs.foldl (Canvas.drawBit py x0 b) cv) fun qy qx => decide (qy = py) && cs.any (bitCovers b x0 qx) := by
  induction cs generalizing cv with
  | nil => exact cv.flips_self fun qy qx => Bool.and_false _
  | cons c cs ih =>
    obtain ⟨hc, hcs⟩ := List.pairwise_cons.1 hcs
    refine ((cv.flips_drawBit py x0 b c).trans (ih _ hcs) fun qy qx hcov => ?disjoint).congr fun qy qx => ?covers
    case disjoint =>
      have hqx := bitCovers_eq_true (Bool.and_eq_true_iff.1 hcov).2
      have hnone : cs.any (bitCovers b x0 qx) = false :=
        List.any_eq_false.2 fun d hd hcov' => hc d hd (hqx.trans (bitCovers_eq_true hcov').symm)
      rw [hnone, Bool.and_false]
    case covers => rw [List.any_cons, Bool.and_or_distrib_left]

theorem Canvas.flips_drawRow (cv : Canvas) (py : Fin 32) (x0 : Nat) (b : Byte) :
    cv.Flips (cv.drawRow py x0 b) fun qy qx => decide (qy = py) && (List.range 8).any (bitCovers b x0 qx) := by
  refine cv.flips_foldl_drawBit py x0 b (List.pairwise_lt_range.imp_of_mem fun {c d} hc hd hlt => ?_)
  rw [List.mem_range] at hc hd
  omega

/-! ### The sprite's cover, row by row (R120) -/

theorem spriteCovers_of_lt {py : Fin 32} {y0 : Nat} (h : py.val < y0) (bs : List Byte) (x0 : Nat) (px : Fin 64) :
    spriteCovers bs x0 y0 py px = false := by
  unfold spriteCovers
  split
  · rfl
  · rw [decide_eq_false (by omega), Bool.false_and]

theorem spriteCovers_cons (b : Byte) (bs : List Byte) (x0 y0 : Nat) (py : Fin 32) (px : Fin 64) :
    spriteCovers (b :: bs) x0 y0 py px =
      ((decide (py.val = y0) && (List.range 8).any (bitCovers b x0 px)) || spriteCovers bs x0 (y0 + 1) py px) := by
  rcases Nat.lt_trichotomy py.val y0 with h | h | h
  · rw [spriteCovers_of_lt h, spriteCovers_of_lt (by omega), decide_eq_false (by omega)]
    rfl
  · rw [spriteCovers_of_lt (by omega : py.val < y0 + 1), decide_eq_true h, Bool.or_false, Bool.true_and, spriteCovers]
    simp only [h, Nat.sub_self, List.getElem?_cons_zero, le_refl, decide_true, Bool.true_and]
    rfl
  · obtain ⟨d, hd⟩ : ∃ d, py.val - y0 = d + 1 := ⟨py.val - y0 - 1, by omega⟩
    have hd' : py.val - (y0 + 1) = d := by omega
    rw [decide_eq_false (by omega : ¬ py.val = y0), Bool.false_and, Bool.false_or, spriteCovers, spriteCovers, hd, hd',
      List.getElem?_cons_succ]
    simp only [decide_eq_true (by omega : y0 ≤ py.val), decide_eq_true (by omega : y0 + 1 ≤ py.val)]

theorem Canvas.flips_drawRows (cv : Canvas) (x0 y0 : Nat) (bs : List Byte) :
    cv.Flips (Canvas.drawRows x0 y0 bs cv) (spriteCovers bs x0 y0) := by
  induction bs generalizing cv y0 with
  | nil => exact cv.flips_self fun _ _ => rfl
  | cons b bs ih =>
    rw [drawRows]
    split
    · next hrow =>
      refine ((cv.flips_drawRow ⟨y0, hrow⟩ x0 b).trans (ih _ _) fun py px hcov => ?disjoint).congr fun py px => ?covers
      case disjoint =>
        have hpy : py = ⟨y0, hrow⟩ := of_decide_eq_true (Bool.and_eq_true_iff.1 hcov).1
        exact spriteCovers_of_lt (by simp [hpy]) bs x0 px
      case covers =>
        rw [spriteCovers_cons]
        simp only [Fin.ext_iff]
    · next hclipped =>
      refine (ih _ _).congr fun py px => ?_
      rw [spriteCovers_cons, decide_eq_false (by omega : ¬ py.val = y0), Bool.false_and, Bool.false_or]

/-! ### DRW -/

theorem Memory.bytesFrom_eq_map (m : Memory) (a n : Nat) :
    m.bytesFrom a n = (List.range n).map fun r => m.byteAt (a + r) := by
  refine List.ext_getElem (by simp) fun j hj _ => ?_
  rw [Memory.length_bytesFrom] at hj
  obtain ⟨_, hread⟩ := List.getElem?_eq_some_iff.1 (getElem?_bytesFrom m a n j hj)
  rw [hread, List.getElem_map, List.getElem_range]

theorem flagByte_eq_one_iff (c : Bool) : flagByte c = 1 ↔ c = true := by
  cases c <;> decide

/-- The pixels that DRW Vx, Vy, n covers. -/
def State.covers (s : State) (x y : RegIdx) (n : Nibble) : Fin 32 → Fin 64 → Bool :=
  spriteCovers ((List.range n.toNat).map fun r => s.mem.byteAt (s.iReg.toNat + r)) ((s.reg x).toNat % 64)
    ((s.reg y).toNat % 32)

theorem State.flips_drawn (s : State) (x y : RegIdx) (n : Nibble) :
    Canvas.Flips ⟨s.disp, false⟩ (s.drawn x y n) (s.covers x y n) := by
  rw [State.covers, ← Memory.bytesFrom_eq_map]
  exact Canvas.flips_drawRows ..

theorem State.collide_drawn (s : State) (x y : RegIdx) (n : Nibble) :
    (s.drawn x y n).collide = true ↔ ∃ py px, s.covers x y n py px = true ∧ s.disp.pixel py px = true := by
  simpa using (s.flips_drawn x y n).collide

/-- The state DRW completes in: pixels and VF. -/
theorem completed_drw_reg_vf (s : State) (x y : RegIdx) (n : Nibble) :
    (completed (.drw x y n) s).reg 15 = flagByte (s.drawn x y n).collide :=
  State.reg_setReg_same ..

/-- Settles O47. -/
theorem drwXorsTheSprite : Obligations.DrwXorsTheSprite := by
  unfold Obligations.DrwXorsTheSprite
  refine ⟨fun x y n => by simp [wordXY_eq_encXyn, decodeWord], fun x y n s => ⟨fun hfits => ?draws, exec_drw_of_gt x y n⟩⟩
  case draws =>
    refine ⟨_, exec_drw_of_le x y n hfits, rfl, (s.flips_drawn x y n).pixel, fun r hr => ?other, fun hmeets => ?on,
      fun hmeets => ?off⟩
    case other => exact State.reg_setReg_other _ hr.symm _
    case on =>
      refine (completed_drw_reg_vf s x y n).trans ?_
      rw [(s.collide_drawn x y n).2 hmeets]
      rfl
    case off =>
      refine (completed_drw_reg_vf s x y n).trans ?_
      rw [eq_false_of_ne_true (mt (s.collide_drawn x y n).1 hmeets)]
      rfl

/-- Settles O48: the second draw covers the same pixels, so each is flipped back. -/
theorem drawingTwiceRestoresTheDisplay : Obligations.DrawingTwiceRestoresTheDisplay := by
  unfold Obligations.DrawingTwiceRestoresTheDisplay
  intro x y n s t hraises hdraw hx hy
  obtain rfl := Host.Outcome.next.inj ((exec_of_raises_eq_none hraises).symm.trans hdraw)
  have hcovers : (completed (.drw x y n) s).covers x y n = s.covers x y n := by
    rw [State.covers, hx, hy]
    rfl
  have hfirst (py px) : (completed (.drw x y n) s).disp.pixel py px = (s.disp.pixel py px ^^ s.covers x y n py px) :=
    (s.flips_drawn x y n).pixel py px
  refine ⟨_, exec_of_raises_eq_none hraises, Display.ext_pixel fun py px => ?_, ?_⟩
  · refine (((completed (.drw x y n) s).flips_drawn x y n).pixel py px).trans ?_
    rw [hcovers]
    show ((completed (.drw x y n) s).disp.pixel py px ^^ _) = _
    rw [hfirst, Bool.xor_assoc, Bool.xor_self, Bool.xor_false]
  · rw [completed_drw_reg_vf, flagByte_eq_one_iff, State.collide_drawn, hcovers]
    refine exists_congr fun py => exists_congr fun px => ?_
    rw [hfirst]
    cases s.covers x y n py px <;> cases s.disp.pixel py px <;> decide

end Sys2Proof.Machine
end
